-- ==== Sys2Proof/Word.lean ====
section
/-! DEFINITION. The word and the byte of the machine (00_scope.md R10, R12; 30_encoding.md R60). -/

namespace Sys2Proof

/-- The 16-bit word: the width of a register, of the pc, of an address and of a memory cell (R10). -/
abbrev Word := BitVec 16

/-- A byte of the input or the output channel (R9, R15). -/
abbrev Byte := BitVec 8

end Sys2Proof
end

