-- ==== Sys2Proof/Config.lean ====
section
/-! DEFINITION. The named parameters of 00_scope.md R11, their defaults, and the two values the spec leaves OPEN. -/

namespace Sys2Proof

/-- The named parameters the model takes as arguments (R11). `INITIAL_MEMORY` and `INPUT` are arguments of
`State.resetWith` instead. -/
structure Config where
  /-- `KBSR_ADDR`, the address of the keyboard status register (R42, D5). -/
  kbsrAddr : Word
  /-- `KBDR_ADDR`, the address of the keyboard data register (R42, D5). -/
  kbdrAddr : Word
  /-- `START_PC`, the pc at reset (R33, D16). -/
  startPc : Word
  /-- `OUT_TERMINATOR`, what OUT writes after its character (R172, D9). -/
  outTerminator : List Byte
  /-- `IN_PROMPT`, what IN writes before it reads (R174, D10). -/
  inPrompt : List Byte
  /-- `HALT_MESSAGE`, what HALT writes before it halts (R176, D11). -/
  haltMessage : List Byte
  /-- `TRAP_WRITES_R7`, whether TRAP writes the return address to R7 (R170, D12). -/
  trapWritesR7 : Bool
  deriving DecidableEq, Repr

/-- FREE VALUE. `IN_PROMPT` is OPEN (R11, D10): "a prompt", and the spec gives no text. Log 10. -/
opaque Config.freeInPrompt : List Byte

/-- FREE VALUE. `HALT_MESSAGE` is OPEN (R11, D11): "a shutdown message", and the spec gives no text. Log 10. -/
opaque Config.freeHaltMessage : List Byte

/-- The defaults of R11's table. UNVERIFIED: the keyboard addresses (log 3), the terminator (log 9), the start
address (log 15) and `TRAP_WRITES_R7` (log 11) are decisions of the spec that its source does not state. -/
def Config.default : Config where
  kbsrAddr := 0xFE00#16
  kbdrAddr := 0xFE02#16
  startPc := 0x3000#16
  outTerminator := [0x0A#8]
  inPrompt := Config.freeInPrompt
  haltMessage := Config.freeHaltMessage
  trapWritesR7 := false

/-- "`KBSR_ADDR` and `KBDR_ADDR` must differ." (R11) -/
def Config.wf (c : Config) : Bool := c.kbsrAddr != c.kbdrAddr

end Sys2Proof
end

