-- ==== Sys2Proof/Syntax.lean ====
section
/-! DEFINITION. The instructions: one constructor per row of spec/opcode_table.json. -/

namespace Sys2Proof

/-- The eight general registers a 3-bit register field names (10_state.md R21, R23). -/
inductive Reg
  | r0 | r1 | r2 | r3 | r4 | r5 | r6 | r7
  deriving DecidableEq, Repr

/-- The sixteen opcodes selected by `I[15:12]` (30_encoding.md R62, R73). -/
inductive Opcode
  | br | add | ld | st | jsr | and | ldr | str | rti | not | ldi | sti | jmp | res | lea | trap
  deriving DecidableEq, Repr

/-- The six built-in trap routines (44_trap.md R170 to R176). -/
inductive TrapRoutine
  | getc | out | puts | inChar | putsp | halt
  deriving DecidableEq, Repr

/-- One constructor per row of spec/opcode_table.json, in the table's order. Immediates and offsets are the
encoded fields, not yet extended (30_encoding.md R75). -/
inductive Instr
  /-- ADD, register mode (R110). -/
  | addReg (dr sr1 sr2 : Reg)
  /-- ADD, immediate mode (R111). -/
  | addImm (dr sr1 : Reg) (imm5 : BitVec 5)
  /-- AND, register mode (R112). -/
  | andReg (dr sr1 sr2 : Reg)
  /-- AND, immediate mode (R113). -/
  | andImm (dr sr1 : Reg) (imm5 : BitVec 5)
  /-- NOT (R114). -/
  | not (dr sr1 : Reg)
  /-- LD, load PC-relative (R130). -/
  | ld (dr : Reg) (pcOffset9 : BitVec 9)
  /-- ST, store PC-relative (R131). -/
  | st (sr : Reg) (pcOffset9 : BitVec 9)
  /-- LDI, load indirect (R132). -/
  | ldi (dr : Reg) (pcOffset9 : BitVec 9)
  /-- STI, store indirect (R133). -/
  | sti (sr : Reg) (pcOffset9 : BitVec 9)
  /-- LDR, load base plus offset (R134). -/
  | ldr (dr baseR : Reg) (offset6 : BitVec 6)
  /-- STR, store base plus offset (R135). -/
  | str (sr baseR : Reg) (offset6 : BitVec 6)
  /-- LEA, load effective address (R136). -/
  | lea (dr : Reg) (pcOffset9 : BitVec 9)
  /-- BR, with the three condition bits `nzp` (R150, R70). -/
  | br (nzp : BitVec 3) (pcOffset9 : BitVec 9)
  /-- JMP; RET is JMP with base R7 (R151, R78). -/
  | jmp (baseR : Reg)
  /-- JSR, PC-relative (R152). -/
  | jsr (pcOffset11 : BitVec 11)
  /-- JSRR, through a register (R153). -/
  | jsrr (baseR : Reg)
  /-- RTI, not implemented: fatal (R154). -/
  | rti
  /-- RES, the reserved opcode: fatal (R155). -/
  | res
  /-- TRAP, the dispatcher, with any vector (R170). Every word of this row is also a word of one of the seven
  rows below, which is what the decoder answers (log 18). -/
  | trap (trapvect8 : BitVec 8)
  /-- GETC, vector 0x20 (R171). -/
  | trapGetc
  /-- OUT, vector 0x21 (R172). -/
  | trapOut
  /-- PUTS, vector 0x22 (R173). -/
  | trapPuts
  /-- IN, vector 0x23 (R174). -/
  | trapIn
  /-- PUTSP, vector 0x24 (R175). -/
  | trapPutsp
  /-- HALT, vector 0x25 (R176). -/
  | trapHalt
  /-- TRAP_other, a vector outside 0x20..0x25: fatal (R177). -/
  | trapOther (trapvect8 : BitVec 8)
  deriving DecidableEq, Repr

end Sys2Proof
end

