-- ==== Sys2Proof/Machine/State.lean ====
section
/-! DEFINITION. The state of the machine (10_state.md section 1), the reasons a step can stop, and reset. -/

namespace Sys2Proof.Machine

/-- The eight general registers, 16 bits each, with no hardwired value (R21). -/
structure RegFile where
  r0 : Word
  r1 : Word
  r2 : Word
  r3 : Word
  r4 : Word
  r5 : Word
  r6 : Word
  r7 : Word
  deriving DecidableEq, Repr

/-- The 65536 words of memory (R40), as the list of their non-zero bytes: the word at address `a` has its low byte
under the key `2 a` and its high byte under `2 a + 1`. DESIGN CHOICE (log 1): the core never addresses a byte
(R41, R48), so no program can tell which byte has which key. -/
structure Memory where
  cells : List Host.Cell
  deriving DecidableEq, Repr

/-- The termination codes of the core (R90). -/
inductive FatalCode
  /-- 10, "RTI or RES opcode executed" (R201). -/
  | rtiOrRes
  /-- 20, "unrecognized top-level opcode" (R203); no word reaches it (R99, log 23). -/
  | unknownOpcode
  /-- 21, "unrecognized trap vector" (R202). -/
  | unknownTrapVector
  deriving DecidableEq, Repr

/-- The run state of the execution loop (R90). -/
inductive RunState
  | running
  | halted
  | fatal (code : FatalCode)
  deriving DecidableEq, Repr

/-- An input request at which a cycle waits (R96, R215), with what is left of that cycle. -/
inductive Wait
  /-- The fetch at `KBSR_ADDR`: nothing of the cycle has happened yet (R96). -/
  | fetch
  /-- The data read of LD, LDR or LDI at `ea`, whose word goes to `dr` (R130, R132, R134). -/
  | load (dr : Reg) (ea : Word)
  /-- The pointer read of LDI at `ea` (R132). -/
  | loadPointer (dr : Reg) (ea : Word)
  /-- The pointer read of STI at `ea` (R133). -/
  | storePointer (sr : Reg) (ea : Word)
  /-- The byte GETC or IN stores in R0 (R171, R174). -/
  | character
  /-- The read of PUTS at `a`, the earlier words already output (R173). -/
  | puts (a : Word)
  /-- The read of PUTSP at `a`, the earlier words already output (R175). -/
  | putsp (a : Word)
  deriving DecidableEq, Repr

/-- The whole state. -/
structure State where
  /-- The parameters of R11: fixed for the machine, written by no step (log 2). -/
  cfg : Config
  /-- R0 to R7 (R21). -/
  regs : RegFile
  /-- The program counter (R24). -/
  pc : Word
  /-- COND, three bits (R25). -/
  cond : BitVec 3
  /-- Memory, with KBSR and KBDR among its words (R40, R42). -/
  mem : Memory
  /-- RUNNING, HALTED or FATAL(code) (R90). -/
  run : RunState
  /-- The input request the current cycle waits at, if it waits (R96, R215). -/
  waiting : Option Wait
  /-- The bytes of the input channel not yet consumed, the next one first (R9, R31; log 8). -/
  input : List Byte
  /-- The position of the input channel: how many bytes have been consumed (R31). -/
  consumed : Nat
  /-- The bytes written to the output channel, the first one first (R9, R31, R179). -/
  output : List Byte
  deriving DecidableEq, Repr

/-- Why a step has no next state. Raised by `step` alone; no meaning answers one. -/
inductive Fault
  /-- `step`, in HALTED: "the core has no further step" (R95). Safe: the hardware does not go on either. -/
  | coreHalted
  /-- `step`, in FATAL(code): "the core then has no further step" (R200, R95). Safe, as above. -/
  | coreFatal (code : FatalCode)
  deriving DecidableEq, Repr

/-- Why an instruction has no meaning. -/
inductive Refusal
  /-- Raised by `exec` for an instruction the model does not give a meaning (no arm does now). Safe: it stops. -/
  | notModelled (mnemonic : String)
  deriving DecidableEq, Repr

/-- "Memory zero-filled" (R33): no byte is listed, and an unlisted byte reads as zero (`unlistedByte`). -/
def Memory.zero : Memory := ⟨[]⟩

/-- "RegisterFile zero-filled" (R33). -/
def RegFile.zero : RegFile := ⟨0#16, 0#16, 0#16, 0#16, 0#16, 0#16, 0#16, 0#16⟩

/-- The state after reset for given parameters, `INITIAL_MEMORY` and supplied part of `INPUT` (R33, R230). -/
def State.resetWith (cfg : Config) (initialMemory : Memory) (input : List Byte) : State where
  cfg := cfg
  regs := RegFile.zero
  pc := cfg.startPc
  cond := 0b000#3
  mem := initialMemory
  run := .running
  waiting := none
  input := input
  consumed := 0
  output := []

/-- The machine right after reset with the default parameters (R11), before any image is loaded (R231; log 19)
and before the host has supplied a byte of input (DESIGN CHOICE, log 8). -/
def State.reset : State := State.resetWith Config.default Memory.zero []

end Sys2Proof.Machine
end

