-- ==== Sys2Proof/Machine/Ops.lean ====
section
/-! DEFINITION. The named operations over registers, memory, the keyboard registers, the two channels and the run
state: every meaning is written with these. -/

namespace Sys2Proof.Machine

/-! Registers (10_state.md R15, R21): one read and one write, none hardwired. -/

/-- `x[r]`. -/
def RegFile.get (f : RegFile) : Reg → Word
  | .r0 => f.r0
  | .r1 => f.r1
  | .r2 => f.r2
  | .r3 => f.r3
  | .r4 => f.r4
  | .r5 => f.r5
  | .r6 => f.r6
  | .r7 => f.r7

/-- `x[r] <- v`. -/
def RegFile.set (f : RegFile) (r : Reg) (v : Word) : RegFile :=
  match r with
  | .r0 => { f with r0 := v }
  | .r1 => { f with r1 := v }
  | .r2 => { f with r2 := v }
  | .r3 => { f with r3 := v }
  | .r4 => { f with r4 := v }
  | .r5 => { f with r5 := v }
  | .r6 => { f with r6 := v }
  | .r7 => { f with r7 := v }

/-- The value of register `r`. -/
def State.reg (s : State) (r : Reg) : Word := s.regs.get r

/-- Write register `r`. -/
def State.writeReg (s : State) (r : Reg) (v : Word) : State := { s with regs := s.regs.set r v }

/-- `pc <- v`. -/
def State.writePc (s : State) (v : Word) : State := { s with pc := v }

/-! Memory as bytes under keys (log 1). -/

/-- What a byte nothing has written reads as: memory is zero-filled at reset (R33, R231). -/
def unlistedByte : Byte := 0#8

/-- The byte under the key `k`. -/
def byteAt : List Host.Cell → Nat → Byte
  | [], _ => unlistedByte
  | c :: rest, k => if c.1 = k then c.2 else byteAt rest k

/-- Put the pair `(k, b)` before the first cell with a greater key. -/
def insertCell (k : Nat) (b : Byte) : List Host.Cell → List Host.Cell
  | [] => [(k, b)]
  | c :: rest => if k < c.1 then (k, b) :: c :: rest else c :: insertCell k b rest

/-- Set the byte under the key `k`, keeping the canonical form. -/
def setByte (k : Nat) (b : Byte) (cells : List Host.Cell) : List Host.Cell :=
  if b = unlistedByte then cells.filter (fun c => c.1 != k)
  else insertCell k b (cells.filter (fun c => c.1 != k))

/-- How many byte keys there are: two for each of the 65536 words (R40). -/
def numKeys : Nat := 131072

/-- Keys strictly rising from `lo`, below `numKeys`, and no byte that equals what an unlisted key reads as. -/
def cellsWf : Nat → List Host.Cell → Bool
  | _, [] => true
  | lo, c :: rest =>
    decide (lo ≤ c.1) && decide (c.1 < numKeys) && (c.2 != unlistedByte) && cellsWf (c.1 + 1) rest

/-- The canonical form of memory: equal memories are equal data. -/
def Memory.wf (m : Memory) : Bool := cellsWf 0 m.cells

/-- `mem[a]`, the stored word, with no side effect (R40). -/
def Memory.read (m : Memory) (a : Word) : Word :=
  byteAt m.cells (2 * a.toNat + 1) ++ byteAt m.cells (2 * a.toNat)

/-- `mem[a] <- v`. -/
def Memory.write (m : Memory) (a v : Word) : Memory :=
  ⟨setByte (2 * a.toNat + 1) (v.extractLsb' 8 8) (setByte (2 * a.toNat) (v.extractLsb' 0 8) m.cells)⟩

/-- `MemWrite(addr, 1, v)`: unconditional, with no side effect at any address (R46). -/
def State.memWrite (s : State) (a v : Word) : State := { s with mem := s.mem.write a v }

/-! Bytes and words (R15, R48, R175). -/

/-- `w[7:0]`. -/
def lowByte (w : Word) : Byte := w.extractLsb' 0 8

/-- `w[15:8]`. -/
def highByte (w : Word) : Byte := w.extractLsb' 8 8

/-- `zext_8(b)` (R14). -/
def zext8 (b : Byte) : Word := b.setWidth 16

/-! The channels (R9, R15, R179). -/

/-- One byte is consumed, and `rest` is what is left of the channel (R31). -/
def State.advanceInput (s : State) (rest : List Byte) : State :=
  { s with input := rest, consumed := s.consumed + 1 }

/-- `InByte()`: the next byte of the input channel and the state with it consumed, or `none` while the channel
has no byte, when the request blocks (R15, R96; log 7). -/
def State.inByte (s : State) : Option (Byte × State) :=
  match s.input with
  | [] => none
  | b :: rest => some (b, s.advanceInput rest)

/-- `OutBytes(bs)`: append the bytes in order (R15, R179). -/
def State.outBytes (s : State) (bs : List Byte) : State := { s with output := s.output ++ bs }

/-- `OutByte(b)` (R15). -/
def State.outByte (s : State) (b : Byte) : State := s.outBytes [b]

/-- The HOST supplies input bytes, between two steps (R216, R215; log 8). -/
def State.supply (s : State) (bs : List Byte) : State := { s with input := s.input ++ bs }

/-- The current cycle waits at an input request (R96): all state is kept, and `run` stays RUNNING. -/
def State.block (s : State) (w : Wait) : State := { s with waiting := some w }

/-- The cycle goes on with what was left of it. -/
def State.unblock (s : State) : State := { s with waiting := none }

/-! The keyboard registers and the read path (20_memory.md R42 to R47). -/

/-- The refresh of KBSR and KBDR by the byte `b` (R43). UNVERIFIED: the exact words are the spec's decision D6
(log 6). -/
def State.refresh (s : State) (b : Byte) : State :=
  if b ≠ 0#8 then (s.memWrite s.cfg.kbsrAddr 0x8000#16).memWrite s.cfg.kbdrAddr (zext8 b)
  else s.memWrite s.cfg.kbsrAddr 0x0000#16

/-- `MemRead(addr, 1)`: the word and the state after the read, or `none` while the refresh that a read of
`KBSR_ADDR` makes finds no input byte, when the read blocks (R43, R96). -/
def State.memRead (s : State) (a : Word) : Option (Word × State) :=
  if a = s.cfg.kbsrAddr then
    match s.inByte with
    | none => none
    | some (b, s1) => some ((s1.refresh b).mem.read a, s1.refresh b)
  else some (s.mem.read a, s)

/-! Ending the run (40_fetch_decode.md R90; 60_exceptions.md R200). -/

/-- The number of a termination code (R90). -/
def FatalCode.code : FatalCode → Nat
  | .rtiOrRes => 10
  | .unknownOpcode => 20
  | .unknownTrapVector => 21

/-- The termination code the core reports (R9(d), R90): none while it is RUNNING, 0 in HALTED ("HALTED reports 0"),
and the code of the stop in FATAL. The host maps it to the process exit code (D22, log 25). -/
def RunState.terminationCode : RunState → Option Nat
  | .running => none
  | .halted => some 0
  | .fatal c => some c.code

/-- `raise Fatal(code)`: the one way to take a fatal stop. Nothing is saved, nothing else changes (R200). There is
no return from it: RTI is itself a fatal stop (R208). -/
def State.raiseFatal (s : State) (c : FatalCode) : State := { s with run := .fatal c }

/-- `halt()`: `run <- HALTED` (R90). -/
def State.halt (s : State) : State := { s with run := .halted }

/-! Entering a trap routine (44_trap.md R170). -/

/-- The first line of R170: `if TRAP_WRITES_R7 then x[7] <- pc`. Off by default (D12, log 11). -/
def State.trapEnter (s : State) : State := if s.cfg.trapWritesR7 then s.writeReg .r7 s.pc else s

end Sys2Proof.Machine
end

