-- ==== Sys2Proof/Machine/Flags.lean ====
section
/-! DEFINITION. COND: the three flags, `setcc` and BR's test (10_state.md R25 to R28; 43_control.md R150). -/

namespace Sys2Proof.Machine

/-- "exactly one of three mutually exclusive flag values" (R25). -/
inductive Flag
  | positive | zero | negative
  deriving DecidableEq, Repr

/-- The bit of COND of each flag. UNVERIFIED: the bit values are the spec's decision D4 (log 5). -/
def Flag.bits : Flag → BitVec 3
  | .positive => 0b001#3
  | .zero => 0b010#3
  | .negative => 0b100#3

/-- The flag of a word: "ZERO if the value is 0, NEGATIVE if its top bit is set, otherwise POSITIVE" (R28). -/
def flagOf (v : Word) : Flag :=
  if v = 0x0000#16 then .zero
  else if v.getLsbD 15 then .negative
  else .positive

/-- `setcc(v)` (R28): the old value of `cond` is not read. -/
def State.setcc (s : State) (v : Word) : State := { s with cond := (flagOf v).bits }

/-- Write a destination register and set the flags from the value written: the common end of ADD, AND, NOT, LD,
LDI, LDR and LEA (R26, R28). -/
def State.writeResult (s : State) (dr : Reg) (v : Word) : State := (s.writeReg dr v).setcc v

/-- BR's condition, `(nzp & cond) != 0b000` (R150). -/
def State.branchTaken (s : State) (nzp : BitVec 3) : Bool := nzp &&& s.cond != 0b000#3

/-- The values COND can hold: its reset value or one of the three flags (R25). -/
def condLegal (c : BitVec 3) : Bool :=
  c == 0b000#3 || c == Flag.positive.bits || c == Flag.zero.bits || c == Flag.negative.bits

end Sys2Proof.Machine
end

