-- ==== Sys2Proof/Machine/Operands.lean ====
section
/-! DEFINITION. The operand forms: sign extension (10_state.md R27) and the effective addresses (30_encoding.md R75,
R76; 42_data_movement.md R137). -/

namespace Sys2Proof.Machine

/-- `sext_N(v)`, by R27's pseudocode: if bit N-1 is set, fill the higher bits with ones, else leave them zero. -/
def sext {n : Nat} (v : BitVec n) : Word :=
  if v.getLsbD (n - 1) then v.setWidth 16 ||| (0xFFFF#16 - (BitVec.ofNat 16 (2 ^ n) - 1#16))
  else v.setWidth 16

/-- `pc + sext_9(PCoffset9)`, with the incremented pc (R76, R137). -/
def State.pcRel9 (s : State) (off : BitVec 9) : Word := s.pc + sext off

/-- `pc + sext_11(PCoffset11)` (R76, R152). -/
def State.pcRel11 (s : State) (off : BitVec 11) : Word := s.pc + sext off

/-- `x[BaseR] + sext_6(offset6)` (R76, R137). -/
def State.baseRel (s : State) (baseR : Reg) (off : BitVec 6) : Word := s.reg baseR + sext off

end Sys2Proof.Machine
end

