-- ==== Sys2Proof/Machine/Control.lean ====
section
/-! DEFINITION. Control transfer: BR, JMP (RET), JSR, JSRR, RTI, RES (43_control.md). The pc read here is the
incremented one (40_fetch_decode.md R92). -/

namespace Sys2Proof.Machine

/-- BR (R150). -/
def execBr (nzp : BitVec 3) (off : BitVec 9) (s : State) : Host.Outcome State Fault Refusal :=
  .next (if s.branchTaken nzp then s.writePc (s.pcRel9 off) else s)

/-- JMP (R151). -/
def execJmp (baseR : Reg) (s : State) : Host.Outcome State Fault Refusal :=
  .next (s.writePc (s.reg baseR))

/-- `x[7] <- pc`, the return address (R152, R153). -/
def State.link (s : State) : State := s.writeReg .r7 s.pc

/-- JSR (R152). -/
def execJsr (off : BitVec 11) (s : State) : Host.Outcome State Fault Refusal :=
  .next (s.link.writePc (s.link.pcRel11 off))

/-- JSRR: BaseR is read AFTER the write to R7 (R153). UNVERIFIED: the spec's decision D19 (log 16). -/
def execJsrr (baseR : Reg) (s : State) : Host.Outcome State Fault Refusal :=
  .next (s.link.writePc (s.link.reg baseR))

/-- RTI: `raise Fatal(10)` (R154, R201). -/
def execRti (s : State) : Host.Outcome State Fault Refusal :=
  .next (s.raiseFatal .rtiOrRes)

/-- RES: `raise Fatal(10)` (R155, R201). -/
def execRes (s : State) : Host.Outcome State Fault Refusal :=
  .next (s.raiseFatal .rtiOrRes)

end Sys2Proof.Machine
end

