-- ==== Sys2Proof/Machine/DataMovement.lean ====
section
/-! DEFINITION. Data movement: LD, ST, LDI, STI, LDR, STR, LEA (42_data_movement.md). Each read that may block is
the start of a tail of the cycle (`loadFrom`, `loadIndirectFrom`, `storeIndirectFrom`): the tail either runs, or
leaves the cycle waiting at that read, to run when a byte arrives (40_fetch_decode.md R96). -/

namespace Sys2Proof.Machine

/-- `x[DR] <- MemRead(ea, 1); setcc(x[DR])`. -/
def loadFrom (dr : Reg) (ea : Word) (s : State) : State :=
  match s.memRead ea with
  | none => s.block (.load dr ea)
  | some (v, s1) => s1.writeResult dr v

/-- `p <- MemRead(ea, 1)`, then the load from `p`: two sequential reads (R132). -/
def loadIndirectFrom (dr : Reg) (ea : Word) (s : State) : State :=
  match s.memRead ea with
  | none => s.block (.loadPointer dr ea)
  | some (p, s1) => loadFrom dr p s1

/-- `p <- MemRead(ea, 1); MemWrite(p, 1, x[SR])` (R133). -/
def storeIndirectFrom (sr : Reg) (ea : Word) (s : State) : State :=
  match s.memRead ea with
  | none => s.block (.storePointer sr ea)
  | some (p, s1) => s1.memWrite p (s1.reg sr)

/-- LD (R130). -/
def execLd (dr : Reg) (off : BitVec 9) (s : State) : Host.Outcome State Fault Refusal :=
  .next (loadFrom dr (s.pcRel9 off) s)

/-- ST (R131). -/
def execSt (sr : Reg) (off : BitVec 9) (s : State) : Host.Outcome State Fault Refusal :=
  .next (s.memWrite (s.pcRel9 off) (s.reg sr))

/-- LDI (R132). -/
def execLdi (dr : Reg) (off : BitVec 9) (s : State) : Host.Outcome State Fault Refusal :=
  .next (loadIndirectFrom dr (s.pcRel9 off) s)

/-- STI (R133). -/
def execSti (sr : Reg) (off : BitVec 9) (s : State) : Host.Outcome State Fault Refusal :=
  .next (storeIndirectFrom sr (s.pcRel9 off) s)

/-- LDR (R134). -/
def execLdr (dr baseR : Reg) (off : BitVec 6) (s : State) : Host.Outcome State Fault Refusal :=
  .next (loadFrom dr (s.baseRel baseR off) s)

/-- STR (R135). -/
def execStr (sr baseR : Reg) (off : BitVec 6) (s : State) : Host.Outcome State Fault Refusal :=
  .next (s.memWrite (s.baseRel baseR off) (s.reg sr))

/-- LEA: no memory access, and the flags are set (R136, C9). -/
def execLea (dr : Reg) (off : BitVec 9) (s : State) : Host.Outcome State Fault Refusal :=
  .next (s.writeResult dr (s.pcRel9 off))

end Sys2Proof.Machine
end

