-- ==== Sys2Proof/Machine/Operate.lean ====
section
/-! DEFINITION. The operate instructions: ADD, AND, NOT (41_operate.md). -/

namespace Sys2Proof.Machine

/-- ADD, register mode (R110). -/
def execAddReg (dr sr1 sr2 : Reg) (s : State) : Host.Outcome State Fault Refusal :=
  .next (s.writeResult dr (s.reg sr1 + s.reg sr2))

/-- ADD, immediate mode (R111). -/
def execAddImm (dr sr1 : Reg) (imm5 : BitVec 5) (s : State) : Host.Outcome State Fault Refusal :=
  .next (s.writeResult dr (s.reg sr1 + sext imm5))

/-- AND, register mode (R112). -/
def execAndReg (dr sr1 sr2 : Reg) (s : State) : Host.Outcome State Fault Refusal :=
  .next (s.writeResult dr (s.reg sr1 &&& s.reg sr2))

/-- AND, immediate mode (R113). -/
def execAndImm (dr sr1 : Reg) (imm5 : BitVec 5) (s : State) : Host.Outcome State Fault Refusal :=
  .next (s.writeResult dr (s.reg sr1 &&& sext imm5))

/-- NOT (R114). -/
def execNot (dr sr1 : Reg) (s : State) : Host.Outcome State Fault Refusal :=
  .next (s.writeResult dr (~~~ s.reg sr1))

end Sys2Proof.Machine
end

