-- ==== Sys2Proof/WellFormed.lean ====
section
/-! DEFINITION. Which instructions are well formed: those that are the row their own words decode to. The
field widths of 30_encoding.md R61 hold by the types of Instr's arguments. -/

namespace Sys2Proof

/-- Why an instruction is ill formed. -/
inductive IllFormed
  /-- `Instr.trap v` names words whose row is a more specific one (opcode_table.json, the TRAP row's note; log 18). -/
  | secondSpelling (trapvect8 : BitVec 8)
  /-- `Instr.trapOther v` with one of the six known vectors, which TRAP_other does not name (R177). -/
  | knownVector (trapvect8 : BitVec 8)
  deriving DecidableEq, Repr

/-- The check: `none` when the instruction is well formed, and otherwise the reason by name. -/
def Instr.illFormed : Instr → Option IllFormed
  | .addReg _ _ _ => none
  | .addImm _ _ _ => none
  | .andReg _ _ _ => none
  | .andImm _ _ _ => none
  | .not _ _ => none
  | .ld _ _ => none
  | .st _ _ => none
  | .ldi _ _ => none
  | .sti _ _ => none
  | .ldr _ _ _ => none
  | .str _ _ _ => none
  | .lea _ _ => none
  | .br _ _ => none
  | .jmp _ => none
  | .jsr _ => none
  | .jsrr _ => none
  | .rti => none
  | .res => none
  | .trap v => some (.secondSpelling v)
  | .trapGetc => none
  | .trapOut => none
  | .trapPuts => none
  | .trapIn => none
  | .trapPutsp => none
  | .trapHalt => none
  | .trapOther v => if 0x20#8 ≤ v ∧ v ≤ 0x25#8 then some (.knownVector v) else none

/-- Well formed: the check finds nothing. -/
def Instr.wf (i : Instr) : Bool := i.illFormed.isNone

end Sys2Proof
end

