-- ==== Sys2Proof/Decode.lean ====
section
/-! DEFINITION. Decoding every 16-bit word (30_encoding.md R60 to R77) and, after it, encoding. UNVERIFIED: the
opcode numbers (log 4) and every field position but those of the opcode and the trap vector (log 5) are
decisions of the spec that its source does not state. -/

namespace Sys2Proof

/-- The register a 3-bit field names (10_state.md R23). -/
def Reg.ofField (f : BitVec 3) : Reg :=
  match f.toNat with
  | 0 => .r0
  | 1 => .r1
  | 2 => .r2
  | 3 => .r3
  | 4 => .r4
  | 5 => .r5
  | 6 => .r6
  | _ => .r7

/-- The 3-bit field that names a register (10_state.md R23). -/
def Reg.field : Reg → BitVec 3
  | .r0 => 0#3
  | .r1 => 1#3
  | .r2 => 2#3
  | .r3 => 3#3
  | .r4 => 4#3
  | .r5 => 5#3
  | .r6 => 6#3
  | .r7 => 7#3

/-- R73's table, from the number to the opcode: all sixteen values name one. -/
def Opcode.ofField (f : BitVec 4) : Opcode :=
  match f.toNat with
  | 0x0 => .br
  | 0x1 => .add
  | 0x2 => .ld
  | 0x3 => .st
  | 0x4 => .jsr
  | 0x5 => .and
  | 0x6 => .ldr
  | 0x7 => .str
  | 0x8 => .rti
  | 0x9 => .not
  | 0xA => .ldi
  | 0xB => .sti
  | 0xC => .jmp
  | 0xD => .res
  | 0xE => .lea
  | _ => .trap

/-- R73's table, from the opcode to its number. -/
def Opcode.field : Opcode → BitVec 4
  | .br => 0x0#4
  | .add => 0x1#4
  | .ld => 0x2#4
  | .st => 0x3#4
  | .jsr => 0x4#4
  | .and => 0x5#4
  | .ldr => 0x6#4
  | .str => 0x7#4
  | .rti => 0x8#4
  | .not => 0x9#4
  | .ldi => 0xA#4
  | .sti => 0xB#4
  | .jmp => 0xC#4
  | .res => 0xD#4
  | .lea => 0xE#4
  | .trap => 0xF#4

/-- The field `I[lo + n - 1 : lo]`, by masked shift (R60). -/
def bits (I : Word) (lo n : Nat) : BitVec n := I.extractLsb' lo n

/-- `op = I[15:12]` (R62). -/
def opcodeOf (I : Word) : Opcode := Opcode.ofField (bits I 12 4)

/-- `DR = SR = I[11:9]` (R64). -/
def fieldDR (I : Word) : Reg := Reg.ofField (bits I 9 3)

/-- `SR1 = BaseR = I[8:6]` (R65). -/
def fieldSR1 (I : Word) : Reg := Reg.ofField (bits I 6 3)

/-- `SR2 = I[2:0]` (R66). -/
def fieldSR2 (I : Word) : Reg := Reg.ofField (bits I 0 3)

/-- `decode(I)` of R74, letter for letter: it answers the TRAP row for every TRAP word. -/
def decodeForm (I : Word) : Instr :=
  match opcodeOf I with
  | .br => .br (bits I 9 3) (bits I 0 9)
  | .add => if bits I 5 1 = 0#1 then .addReg (fieldDR I) (fieldSR1 I) (fieldSR2 I)
            else .addImm (fieldDR I) (fieldSR1 I) (bits I 0 5)
  | .ld => .ld (fieldDR I) (bits I 0 9)
  | .st => .st (fieldDR I) (bits I 0 9)
  | .jsr => if bits I 11 1 = 1#1 then .jsr (bits I 0 11) else .jsrr (fieldSR1 I)
  | .and => if bits I 5 1 = 0#1 then .andReg (fieldDR I) (fieldSR1 I) (fieldSR2 I)
            else .andImm (fieldDR I) (fieldSR1 I) (bits I 0 5)
  | .ldr => .ldr (fieldDR I) (fieldSR1 I) (bits I 0 6)
  | .str => .str (fieldDR I) (fieldSR1 I) (bits I 0 6)
  | .rti => .rti
  | .not => .not (fieldDR I) (fieldSR1 I)
  | .ldi => .ldi (fieldDR I) (bits I 0 9)
  | .sti => .sti (fieldDR I) (bits I 0 9)
  | .jmp => .jmp (fieldSR1 I)
  | .res => .res
  | .lea => .lea (fieldDR I) (bits I 0 9)
  | .trap => .trap (bits I 0 8)

/-- The routine a trap vector selects, `none` for a vector outside 0x20..0x25 (44_trap.md R170). -/
def TrapRoutine.ofVector (v : BitVec 8) : Option TrapRoutine :=
  if v = 0x20#8 then some .getc
  else if v = 0x21#8 then some .out
  else if v = 0x22#8 then some .puts
  else if v = 0x23#8 then some .inChar
  else if v = 0x24#8 then some .putsp
  else if v = 0x25#8 then some .halt
  else none

/-- The row of the opcode table a trap vector names: "A more specific row below gives the routine; a vector
matching none of them is TRAP_other" (opcode_table.json, the TRAP row's note). -/
def trapRow (v : BitVec 8) : Instr :=
  match TrapRoutine.ofVector v with
  | some .getc => .trapGetc
  | some .out => .trapOut
  | some .puts => .trapPuts
  | some .inChar => .trapIn
  | some .putsp => .trapPutsp
  | some .halt => .trapHalt
  | none => .trapOther v

/-- The well-formed instruction that names the same words. -/
def Instr.canonical : Instr → Instr
  | .addReg dr sr1 sr2 => .addReg dr sr1 sr2
  | .addImm dr sr1 imm5 => .addImm dr sr1 imm5
  | .andReg dr sr1 sr2 => .andReg dr sr1 sr2
  | .andImm dr sr1 imm5 => .andImm dr sr1 imm5
  | .not dr sr1 => .not dr sr1
  | .ld dr off => .ld dr off
  | .st sr off => .st sr off
  | .ldi dr off => .ldi dr off
  | .sti sr off => .sti sr off
  | .ldr dr baseR off => .ldr dr baseR off
  | .str sr baseR off => .str sr baseR off
  | .lea dr off => .lea dr off
  | .br nzp off => .br nzp off
  | .jmp baseR => .jmp baseR
  | .jsr off => .jsr off
  | .jsrr baseR => .jsrr baseR
  | .rti => .rti
  | .res => .res
  | .trap v => trapRow v
  | .trapGetc => .trapGetc
  | .trapOut => .trapOut
  | .trapPuts => .trapPuts
  | .trapIn => .trapIn
  | .trapPutsp => .trapPutsp
  | .trapHalt => .trapHalt
  | .trapOther v => trapRow v

/-- THE decoder: every 16-bit word is exactly one row of the opcode table (R74; 95_test_vectors.md section 2.2). It is
total and rejects no word: "Every one of the 16 values of `op` names an opcode" (R73), and an unused bit never
matters (R71). -/
def decode (I : Word) : Instr := (decodeForm I).canonical

/-- The mnemonic-level reading of an opcode-table word: `w` is the word, numbered as the table numbers it; an
instruction is one word (R60), so a row of more than 16 bits, or a value that does not fit, is no instruction. -/
def decodeTableWord (nbits w : Nat) : Option Instr :=
  if nbits ≤ 16 then
    if w < 65536 then some (decode (BitVec.ofNat 16 w)) else none
  else none

/-! The encoder, from the formats of R72. Unused bits get the values R71 names as the standard ones: 0, and
0b111111 in NOT. -/

/-- Format OPR: `oooo DDD SSS 0 xx TTT`. -/
def encodeOPR (op : Opcode) (dr sr1 sr2 : Reg) : Word :=
  op.field ++ dr.field ++ sr1.field ++ 0#1 ++ 0#2 ++ sr2.field

/-- Format OPI: `oooo DDD SSS 1 iiiii`. -/
def encodeOPI (op : Opcode) (dr sr1 : Reg) (imm5 : BitVec 5) : Word :=
  op.field ++ dr.field ++ sr1.field ++ 1#1 ++ imm5

/-- Format NOT: `oooo DDD SSS xxxxxx`. -/
def encodeNOT (op : Opcode) (dr sr1 : Reg) : Word :=
  op.field ++ dr.field ++ sr1.field ++ 0b111111#6

/-- Format PCR: `oooo DDD iiiiiiiii`. -/
def encodePCR (op : Opcode) (r : Reg) (off : BitVec 9) : Word :=
  op.field ++ r.field ++ off

/-- Format BOF: `oooo DDD SSS iiiiii`. -/
def encodeBOF (op : Opcode) (r baseR : Reg) (off : BitVec 6) : Word :=
  op.field ++ r.field ++ baseR.field ++ off

/-- Format BRF: `oooo nzp iiiiiiiii`. -/
def encodeBRF (op : Opcode) (nzp : BitVec 3) (off : BitVec 9) : Word :=
  op.field ++ nzp ++ off

/-- Format JMPF: `oooo xxx SSS xxxxxx`. -/
def encodeJMPF (op : Opcode) (baseR : Reg) : Word :=
  op.field ++ 0#3 ++ baseR.field ++ 0#6

/-- Format JSRF: `oooo 1 iiiiiiiiiii`. -/
def encodeJSRF (op : Opcode) (off : BitVec 11) : Word :=
  op.field ++ 1#1 ++ off

/-- Format JSRRF: `oooo 0 xx SSS xxxxxx`. -/
def encodeJSRRF (op : Opcode) (baseR : Reg) : Word :=
  op.field ++ 0#1 ++ 0#2 ++ baseR.field ++ 0#6

/-- Format TRAPF: `oooo xxxx vvvvvvvv`. -/
def encodeTRAPF (op : Opcode) (v : BitVec 8) : Word :=
  op.field ++ 0#4 ++ v

/-- Format NONE: `oooo xxxxxxxxxxxx`. -/
def encodeNONE (op : Opcode) : Word :=
  op.field ++ 0#12

/-- The word of an instruction. -/
def encode : Instr → Word
  | .addReg dr sr1 sr2 => encodeOPR .add dr sr1 sr2
  | .addImm dr sr1 imm5 => encodeOPI .add dr sr1 imm5
  | .andReg dr sr1 sr2 => encodeOPR .and dr sr1 sr2
  | .andImm dr sr1 imm5 => encodeOPI .and dr sr1 imm5
  | .not dr sr1 => encodeNOT .not dr sr1
  | .ld dr off => encodePCR .ld dr off
  | .st sr off => encodePCR .st sr off
  | .ldi dr off => encodePCR .ldi dr off
  | .sti sr off => encodePCR .sti sr off
  | .ldr dr baseR off => encodeBOF .ldr dr baseR off
  | .str sr baseR off => encodeBOF .str sr baseR off
  | .lea dr off => encodePCR .lea dr off
  | .br nzp off => encodeBRF .br nzp off
  | .jmp baseR => encodeJMPF .jmp baseR
  | .jsr off => encodeJSRF .jsr off
  | .jsrr baseR => encodeJSRRF .jsr baseR
  | .rti => encodeNONE .rti
  | .res => encodeNONE .res
  | .trap v => encodeTRAPF .trap v
  | .trapGetc => encodeTRAPF .trap 0x20#8
  | .trapOut => encodeTRAPF .trap 0x21#8
  | .trapPuts => encodeTRAPF .trap 0x22#8
  | .trapIn => encodeTRAPF .trap 0x23#8
  | .trapPutsp => encodeTRAPF .trap 0x24#8
  | .trapHalt => encodeTRAPF .trap 0x25#8
  | .trapOther v => encodeTRAPF .trap v

/-- The bits of a word that the decoder looks at, by the word's form: all but the unused bits of R71. -/
def usedMask : Instr → Word
  | .addReg _ _ _ => 0xFFE7#16
  | .addImm _ _ _ => 0xFFFF#16
  | .andReg _ _ _ => 0xFFE7#16
  | .andImm _ _ _ => 0xFFFF#16
  | .not _ _ => 0xFFC0#16
  | .ld _ _ => 0xFFFF#16
  | .st _ _ => 0xFFFF#16
  | .ldi _ _ => 0xFFFF#16
  | .sti _ _ => 0xFFFF#16
  | .ldr _ _ _ => 0xFFFF#16
  | .str _ _ _ => 0xFFFF#16
  | .lea _ _ => 0xFFFF#16
  | .br _ _ => 0xFFFF#16
  | .jmp _ => 0xF1C0#16
  | .jsr _ => 0xFFFF#16
  | .jsrr _ => 0xF9C0#16
  | .rti => 0xF000#16
  | .res => 0xF000#16
  | .trap _ => 0xF0FF#16
  | .trapGetc => 0xF0FF#16
  | .trapOut => 0xF0FF#16
  | .trapPuts => 0xF0FF#16
  | .trapIn => 0xF0FF#16
  | .trapPutsp => 0xF0FF#16
  | .trapHalt => 0xF0FF#16
  | .trapOther _ => 0xF0FF#16

/-- The bits of the word `I` that the decoder looks at. -/
def usedBits (I : Word) : Word := usedMask (decodeForm I)

end Sys2Proof
end

