-- ==== Sys2Proof/Machine/Trap.lean ====
section
/-! DEFINITION. TRAP, the dispatcher and its six built-in routines (44_trap.md). A routine runs inside the TRAP's
own cycle and transfers no control (R170, D23, log 24). -/

namespace Sys2Proof.Machine

/-- `b <- InByte(); x[0] <- zext_8(b)`: the end of GETC and of IN. No flag is written (R171, R174, R178). -/
def readCharacter (s : State) : State :=
  match s.inByte with
  | none => s.block .character
  | some (b, s1) => s1.writeReg .r0 (zext8 b)

/-- GETC (R171): no echo, and KBSR and KBDR are not touched. -/
def routineGetc (s : State) : State := readCharacter s

/-- OUT (R172): the low byte of R0, then the terminator. -/
def routineOut (s : State) : State := (s.outByte (lowByte (s.reg .r0))).outBytes s.cfg.outTerminator

/-- The loop of PUTS from address `a` (R173), where `left` counts the words of memory after `a`, so that `left = 0`
says `a == 0xFFFF`, the end of memory (D21, log 17). -/
def putsLoop : (left : Nat) → (a : Word) → State → State
  | 0, a, s =>
    match s.memRead a with
    | none => s.block (.puts a)
    | some (w, s1) => if w = 0x0000#16 then s1 else s1.outByte (lowByte w)
  | left + 1, a, s =>
    match s.memRead a with
    | none => s.block (.puts a)
    | some (w, s1) => if w = 0x0000#16 then s1 else putsLoop left (a + 1#16) (s1.outByte (lowByte w))

/-- The words of memory after address `a`. -/
def wordsAfter (a : Word) : Nat := 0xFFFF - a.toNat

/-- PUTS from address `a` on. -/
def putsFrom (a : Word) (s : State) : State := putsLoop (wordsAfter a) a s

/-- PUTS (R173). -/
def routinePuts (s : State) : State := putsFrom (s.reg .r0) s

/-- IN (R174): the prompt, then one byte, with no echo and no flag (D24, log 20). -/
def routineIn (s : State) : State := readCharacter (s.outBytes s.cfg.inPrompt)

/-- The bytes PUTSP outputs for a word: "output the low byte first, then the high byte only if nonzero" (R175). -/
def packedBytes (w : Word) : List Byte :=
  if highByte w ≠ 0x00#8 then [lowByte w, highByte w] else [lowByte w]

/-- The loop of PUTSP from address `a` (R175), with `left` as in `putsLoop`. -/
def putspLoop : (left : Nat) → (a : Word) → State → State
  | 0, a, s =>
    match s.memRead a with
    | none => s.block (.putsp a)
    | some (w, s1) => if w = 0x0000#16 then s1 else s1.outBytes (packedBytes w)
  | left + 1, a, s =>
    match s.memRead a with
    | none => s.block (.putsp a)
    | some (w, s1) => if w = 0x0000#16 then s1 else putspLoop left (a + 1#16) (s1.outBytes (packedBytes w))

/-- PUTSP from address `a` on. -/
def putspFrom (a : Word) (s : State) : State := putspLoop (wordsAfter a) a s

/-- PUTSP (R175). -/
def routinePutsp (s : State) : State := putspFrom (s.reg .r0) s

/-- HALT (R176): the message, then HALTED. -/
def routineHalt (s : State) : State := (s.outBytes s.cfg.haltMessage).halt

/-- The routine of a name. -/
def runRoutine : TrapRoutine → State → State
  | .getc, s => routineGetc s
  | .out, s => routineOut s
  | .puts, s => routinePuts s
  | .inChar, s => routineIn s
  | .putsp, s => routinePutsp s
  | .halt, s => routineHalt s

/-- TRAP, the dispatcher (R170): select by the vector, and stop on an unknown one (R177). -/
def execTrap (v : BitVec 8) (s : State) : Host.Outcome State Fault Refusal :=
  match TrapRoutine.ofVector v with
  | some r => .next (runRoutine r s.trapEnter)
  | none => .next (s.trapEnter.raiseFatal .unknownTrapVector)

/-- GETC (R171). -/
def execTrapGetc (s : State) : Host.Outcome State Fault Refusal := .next (routineGetc s.trapEnter)

/-- OUT (R172). -/
def execTrapOut (s : State) : Host.Outcome State Fault Refusal := .next (routineOut s.trapEnter)

/-- PUTS (R173). -/
def execTrapPuts (s : State) : Host.Outcome State Fault Refusal := .next (routinePuts s.trapEnter)

/-- IN (R174). -/
def execTrapIn (s : State) : Host.Outcome State Fault Refusal := .next (routineIn s.trapEnter)

/-- PUTSP (R175). -/
def execTrapPutsp (s : State) : Host.Outcome State Fault Refusal := .next (routinePutsp s.trapEnter)

/-- HALT (R176). -/
def execTrapHalt (s : State) : Host.Outcome State Fault Refusal := .next (routineHalt s.trapEnter)

/-- TRAP_other: `raise Fatal(21)`, whatever the vector (R177, C4). With `TRAP_WRITES_R7` on, R170's first line
comes before the stop (log 21). -/
def execTrapOther (_v : BitVec 8) (s : State) : Host.Outcome State Fault Refusal :=
  .next (s.trapEnter.raiseFatal .unknownTrapVector)

end Sys2Proof.Machine
end

