-- ==== Sys2Proof/Machine/Dispatch.lean ====
section
/-! DEFINITION. The dispatch of a decoded instruction to its meaning (40_fetch_decode.md R93, R94). -/

namespace Sys2Proof.Machine

/-- The effect of an instruction, after its fetch and the pc increment (R94). -/
def exec (i : Instr) (s : State) : Host.Outcome State Fault Refusal :=
  match i with
  | .addReg dr sr1 sr2 => Sys2Proof.Machine.execAddReg dr sr1 sr2 s
  | .addImm dr sr1 imm5 => Sys2Proof.Machine.execAddImm dr sr1 imm5 s
  | .andReg dr sr1 sr2 => Sys2Proof.Machine.execAndReg dr sr1 sr2 s
  | .andImm dr sr1 imm5 => Sys2Proof.Machine.execAndImm dr sr1 imm5 s
  | .not dr sr1 => Sys2Proof.Machine.execNot dr sr1 s
  | .ld dr off => Sys2Proof.Machine.execLd dr off s
  | .st sr off => Sys2Proof.Machine.execSt sr off s
  | .ldi dr off => Sys2Proof.Machine.execLdi dr off s
  | .sti sr off => Sys2Proof.Machine.execSti sr off s
  | .ldr dr baseR off => Sys2Proof.Machine.execLdr dr baseR off s
  | .str sr baseR off => Sys2Proof.Machine.execStr sr baseR off s
  | .lea dr off => Sys2Proof.Machine.execLea dr off s
  | .br nzp off => Sys2Proof.Machine.execBr nzp off s
  | .jmp baseR => Sys2Proof.Machine.execJmp baseR s
  | .jsr off => Sys2Proof.Machine.execJsr off s
  | .jsrr baseR => Sys2Proof.Machine.execJsrr baseR s
  | .rti => Sys2Proof.Machine.execRti s
  | .res => Sys2Proof.Machine.execRes s
  | .trap v => Sys2Proof.Machine.execTrap v s
  | .trapGetc => Sys2Proof.Machine.execTrapGetc s
  | .trapOut => Sys2Proof.Machine.execTrapOut s
  | .trapPuts => Sys2Proof.Machine.execTrapPuts s
  | .trapIn => Sys2Proof.Machine.execTrapIn s
  | .trapPutsp => Sys2Proof.Machine.execTrapPutsp s
  | .trapHalt => Sys2Proof.Machine.execTrapHalt s
  | .trapOther v => Sys2Proof.Machine.execTrapOther v s

end Sys2Proof.Machine
end

