-- ==== Sys2Proof/Machine/Cycle.lean ====
section
/-! DEFINITION. One cycle: fetch, increment, decode, execute (40_fetch_decode.md R91 to R94), and what is left of a
cycle that waited for input (R96). -/

namespace Sys2Proof.Machine

/-- A whole cycle from its fetch (R94). A fetch that blocks leaves everything as it was, the pc included (R96). -/
def cycle (s : State) : Host.Outcome State Fault Refusal :=
  match s.memRead s.pc with
  | none => .next (s.block .fetch)
  | some (I, s1) => exec (decode I) (s1.writePc (s1.pc + 1#16))

/-- What is left of a cycle that waits at `w`. It waits there again while no byte has come (R96, R215). -/
def resume (w : Wait) (s : State) : Host.Outcome State Fault Refusal :=
  match w with
  | .fetch => cycle s
  | .load dr ea => .next (loadFrom dr ea s)
  | .loadPointer dr ea => .next (loadIndirectFrom dr ea s)
  | .storePointer sr ea => .next (storeIndirectFrom sr ea s)
  | .character => .next (readCharacter s)
  | .puts a => .next (putsFrom a s)
  | .putsp a => .next (putspFrom a s)

/-- A step of the RUNNING core: begin a cycle, or go on with the one that waits. -/
def stepRunning (s : State) : Host.Outcome State Fault Refusal :=
  match s.waiting with
  | none => cycle s
  | some w => resume w s.unblock

/-- Place one instruction word at the pc and let the next step begin a cycle there. -/
def State.placeWord (s : State) (w : Word) : State :=
  { s.memWrite s.pc w with run := .running, waiting := none }

end Sys2Proof.Machine
end

