-- ==== Sys2Proof/Machine/Step.lean ====
section
/-! DEFINITION. The step of the machine, and the placing of a word where it fetches. -/

namespace Sys2Proof.Machine

/-- One step. A step is defined only in RUNNING (R94): HALTED and FATAL are terminal (R95). -/
def step (s : State) : Host.Outcome State Fault Refusal :=
  match s.run with
  | .running => stepRunning s
  | .halted => .fault .coreHalted
  | .fatal c => .fault (.coreFatal c)

/-- `s` with the instruction word `w` stored at its pc, RUNNING and with no cycle under way, so that the next step
fetches and runs it. It stands for the image the external loader places (R231; log 19). At `pc = KBSR_ADDR` no
stored word is ever fetched, because the fetch refreshes it (R56). -/
def State.withFetchWord (s : State) (_nbits w : Nat) : State := s.placeWord (BitVec.ofNat 16 w)

end Sys2Proof.Machine
end

