-- ==== Sys2Proof/Safety.lean ====
section
/-! DEFINITION. What counts as a legal state, as a safe run, and what one state leaves unchanged of another: the
terms the statements use. -/

namespace Sys2Proof.Machine

/-- A wait that comes from a memory read stands at `KBSR_ADDR`, the only address whose read can block (R43, R96); the
wait of a fetch stands there with the pc, and GETC's and IN's wait reads no memory (R171, R174). -/
def Wait.legal (s : State) : Wait → Bool
  | .fetch => s.pc == s.cfg.kbsrAddr
  | .load _ ea => ea == s.cfg.kbsrAddr
  | .loadPointer _ ea => ea == s.cfg.kbsrAddr
  | .storePointer _ ea => ea == s.cfg.kbsrAddr
  | .character => true
  | .puts a => a == s.cfg.kbsrAddr
  | .putsp a => a == s.cfg.kbsrAddr

/-- No cycle waits, or one waits legally in a core that is RUNNING (R96). -/
def State.waitLegal (s : State) : Bool :=
  match s.waiting with
  | none => true
  | some w => s.run == .running && w.legal s

/-- The code 20 is never the core's status (R99, R203). -/
def RunState.reachable : RunState → Bool
  | .running => true
  | .halted => true
  | .fatal .rtiOrRes => true
  | .fatal .unknownOpcode => false
  | .fatal .unknownTrapVector => true

/-- The invariant of the machine: the two keyboard addresses differ (R11), memory is in canonical form, COND holds
its reset value or one flag (R25), the run state is one an instruction can reach (R99), and a wait is legal. -/
def State.Inv (s : State) : Prop :=
  s.cfg.wf = true ∧ s.mem.wf = true ∧ condLegal s.cond = true ∧ s.run.reachable = true ∧ s.waitLegal = true

/-- A state of a safe run: no fatal stop has been taken ("FATAL is never a success", 93_implementation_defined.md). -/
def State.Safe (s : State) : Prop := ∀ c, s.run ≠ .fatal c

/-- Every stored word reads the same in both states. -/
def SameMemory (s t : State) : Prop := ∀ a, t.mem.read a = s.mem.read a

/-- Every register holds the same in both states. -/
def SameRegs (s t : State) : Prop := ∀ r, t.reg r = s.reg r

/-- Every register but `d` holds the same in both states. -/
def SameRegsBut (d : Reg) (s t : State) : Prop := ∀ r, r ≠ d → t.reg r = s.reg r

/-- The input channel and its position are the same in both states. -/
def SameInput (s t : State) : Prop := t.input = s.input ∧ t.consumed = s.consumed

/-- The parameters, the run state and the wait are the same in both states. -/
def SameControl (s t : State) : Prop := t.cfg = s.cfg ∧ t.run = s.run ∧ t.waiting = s.waiting

/-- Memory, the two channels, the parameters, the run state and the wait are the same in both states: an instruction
with this frame writes registers, COND and the pc at most. -/
def SameOutside (s t : State) : Prop :=
  SameMemory s t ∧ SameInput s t ∧ t.output = s.output ∧ SameControl s t

/-- A read of `a` does not block: it is no read of `KBSR_ADDR`, or a byte of input is there (R43, R96). -/
def State.CanRead (s : State) (a : Word) : Prop := a = s.cfg.kbsrAddr → s.input ≠ []

/-- What TRAP's first line leaves of the registers (R170): all as they were, but for R7 where `TRAP_WRITES_R7` is
on, which then holds the return address. -/
def State.regAfterTrapEnter (s : State) (r : Reg) : Word :=
  if s.cfg.trapWritesR7 = true ∧ r = .r7 then s.pc else s.reg r

/-- The registers after TRAP's first line. -/
def SameRegsAfterTrapEnter (s t : State) : Prop := ∀ r, t.reg r = s.regAfterTrapEnter r

/-- "Flag-setting instruction: ADD, AND, NOT, LD, LDI, LDR, LEA" (R18). -/
def flagSetting : Instr → Bool
  | .addReg _ _ _ => true
  | .addImm _ _ _ => true
  | .andReg _ _ _ => true
  | .andImm _ _ _ => true
  | .not _ _ => true
  | .ld _ _ => true
  | .st _ _ => false
  | .ldi _ _ => true
  | .sti _ _ => false
  | .ldr _ _ _ => true
  | .str _ _ _ => false
  | .lea _ _ => true
  | .br _ _ => false
  | .jmp _ => false
  | .jsr _ => false
  | .jsrr _ => false
  | .rti => false
  | .res => false
  | .trap _ => false
  | .trapGetc => false
  | .trapOut => false
  | .trapPuts => false
  | .trapIn => false
  | .trapPutsp => false
  | .trapHalt => false
  | .trapOther _ => false

/-- The general register an instruction writes, if any (R21); for TRAP, the register its routine writes, GETC's and
IN's R0. -/
def destination : Instr → Option Reg
  | .addReg dr _ _ => some dr
  | .addImm dr _ _ => some dr
  | .andReg dr _ _ => some dr
  | .andImm dr _ _ => some dr
  | .not dr _ => some dr
  | .ld dr _ => some dr
  | .st _ _ => none
  | .ldi dr _ => some dr
  | .sti _ _ => none
  | .ldr dr _ _ => some dr
  | .str _ _ _ => none
  | .lea dr _ => some dr
  | .br _ _ => none
  | .jmp _ => none
  | .jsr _ => some .r7
  | .jsrr _ => some .r7
  | .rti => none
  | .res => none
  | .trap v => if v = 0x20#8 ∨ v = 0x23#8 then some .r0 else none
  | .trapGetc => some .r0
  | .trapOut => none
  | .trapPuts => none
  | .trapIn => some .r0
  | .trapPutsp => none
  | .trapHalt => none
  | .trapOther _ => none

/-- The rows of the TRAP opcode, whose first line may write R7 (R170). -/
def isTrap : Instr → Bool
  | .addReg _ _ _ => false
  | .addImm _ _ _ => false
  | .andReg _ _ _ => false
  | .andImm _ _ _ => false
  | .not _ _ => false
  | .ld _ _ => false
  | .st _ _ => false
  | .ldi _ _ => false
  | .sti _ _ => false
  | .ldr _ _ _ => false
  | .str _ _ _ => false
  | .lea _ _ => false
  | .br _ _ => false
  | .jmp _ => false
  | .jsr _ => false
  | .jsrr _ => false
  | .rti => false
  | .res => false
  | .trap _ => true
  | .trapGetc => true
  | .trapOut => true
  | .trapPuts => true
  | .trapIn => true
  | .trapPutsp => true
  | .trapHalt => true
  | .trapOther _ => true

/-- What an instruction does with memory after its fetch (R58). -/
inductive Access
  /-- Nothing: all but the following. -/
  | nothing
  /-- It reads: LD, LDI, LDR, PUTS, PUTSP, and TRAP, which may dispatch to one of the last two. -/
  | reads
  /-- It stores: ST, STR and STI. -/
  | stores
  deriving DecidableEq, Repr

/-- R58's list. -/
def accessOf : Instr → Access
  | .addReg _ _ _ => .nothing
  | .addImm _ _ _ => .nothing
  | .andReg _ _ _ => .nothing
  | .andImm _ _ _ => .nothing
  | .not _ _ => .nothing
  | .ld _ _ => .reads
  | .st _ _ => .stores
  | .ldi _ _ => .reads
  | .sti _ _ => .stores
  | .ldr _ _ _ => .reads
  | .str _ _ _ => .stores
  | .lea _ _ => .nothing
  | .br _ _ => .nothing
  | .jmp _ => .nothing
  | .jsr _ => .nothing
  | .jsrr _ => .nothing
  | .rti => .nothing
  | .res => .nothing
  | .trap _ => .reads
  | .trapGetc => .nothing
  | .trapOut => .nothing
  | .trapPuts => .reads
  | .trapIn => .nothing
  | .trapPutsp => .reads
  | .trapHalt => .nothing
  | .trapOther _ => .nothing

/-- The words `ws` stand in memory from address `a` on, none of them at `KBSR_ADDR`, and none beyond 0xFFFF. -/
def State.holdsWords (s : State) (a : Word) (ws : List Word) : Prop :=
  a.toNat + ws.length ≤ 65536 ∧
  ∀ i, (h : i < ws.length) →
    s.mem.read (a + BitVec.ofNat 16 i) = ws[i] ∧ a + BitVec.ofNat 16 i ≠ s.cfg.kbsrAddr

/-- "one character per memory word (low 8 bits of each word)" (R173): the low byte, by arithmetic on the word. -/
def character (w : Word) : Byte := BitVec.ofNat 8 (w.toNat % 256)

/-- The characters of a word for PUTSP: "output the low byte first, then the high byte only if nonzero" (R175), by
arithmetic on the word. -/
def packedCharacters (w : Word) : List Byte :=
  if w.toNat / 256 = 0 then [character w] else [character w, BitVec.ofNat 8 (w.toNat / 256)]

/-- `t` is `s` after one refresh of the keyboard by the byte `b`, as far as memory and the input channel go (R42, R43).
The exact words are the spec's decision D6 (log 6). -/
def OneRefresh (b : Byte) (rest : List Byte) (s t : State) : Prop :=
  t.mem.read s.cfg.kbsrAddr = (if b = 0x00#8 then 0x0000#16 else 0x8000#16) ∧
  t.mem.read s.cfg.kbdrAddr = (if b = 0x00#8 then s.mem.read s.cfg.kbdrAddr else BitVec.ofNat 16 b.toNat) ∧
  (∀ a, a ≠ s.cfg.kbsrAddr → a ≠ s.cfg.kbdrAddr → t.mem.read a = s.mem.read a) ∧
  t.input = rest ∧ t.consumed = s.consumed + 1

/-- A string for PUTS and PUTSP: non-zero words from `a` on, ended by a zero word or by the end of memory
(R173, R175), no read of it at `KBSR_ADDR`. -/
def State.holdsString (s : State) (a : Word) (ws : List Word) : Prop :=
  s.holdsWords a ws ∧ (∀ w ∈ ws, w ≠ 0x0000#16) ∧
  (a.toNat + ws.length = 65536 ∨
    (s.mem.read (a + BitVec.ofNat 16 ws.length) = 0x0000#16 ∧
      a + BitVec.ofNat 16 ws.length ≠ s.cfg.kbsrAddr))

end Sys2Proof.Machine
end

