-- ==== Sys2Proof/Certificates/Slice0/Obligations.lean ====
section
/-! DEFINITION. The statements for the provers, in the order of OBLIGATIONS.json. `exec` runs after the fetch and the
pc increment (R92, R94), so the pc of a statement about `exec` is the address of the instruction plus 1. -/

open Sys2Proof Sys2Proof.Machine

/-! Reset. -/

/-- 10_state.md section 8: what reset leaves, for every value of the parameters, of `INITIAL_MEMORY` and of the
supplied input. With the defaults the pc is 0x3000 (the spec's decision D16, log 15) and memory is zero (log 19). -/
def Obligations.ResetLeavesTheSpecifiedState : Prop :=
  (∀ (cfg : Config) (m : Memory) (input : List Byte),
    (∀ r, (State.resetWith cfg m input).reg r = 0x0000#16) ∧
    (State.resetWith cfg m input).cond = 0b000#3 ∧
    (State.resetWith cfg m input).pc = cfg.startPc ∧
    (∀ a, (State.resetWith cfg m input).mem.read a = m.read a) ∧
    (State.resetWith cfg m input).run = .running ∧
    (State.resetWith cfg m input).waiting = none ∧
    (State.resetWith cfg m input).input = input ∧
    (State.resetWith cfg m input).consumed = 0 ∧
    (State.resetWith cfg m input).output = []) ∧
  State.reset.pc = 0x3000#16 ∧ (∀ a, State.reset.mem.read a = 0x0000#16)

/-- The invariant holds after reset, for every canonical initial memory and every legal choice of the parameters. -/
def Obligations.ResetMeetsTheInvariant : Prop :=
  State.Inv State.reset ∧
  ∀ (cfg : Config) (m : Memory) (input : List Byte),
    cfg.wf = true → m.wf = true → State.Inv (State.resetWith cfg m input)

/-! Encoding. -/

/-- Words written out from the formats of 30_encoding.md, at least one for each opcode of R73, each with the
instruction it stands for (95_test_vectors.md sections 2.2 to 2.7). UNVERIFIED: log 4, log 5, log 12. -/
def Obligations.SampleWordsDecodeAsWrittenOut : Prop :=
  decode 0b0001010000000001#16 = .addReg .r2 .r0 .r1 ∧
  decode 0b0001000000011000#16 = .addReg .r0 .r0 .r0 ∧
  decode 0b0101010010111110#16 = .andImm .r2 .r2 0b11110#5 ∧
  decode 0b1001100101000000#16 = .not .r4 .r5 ∧
  decode 0b0010010000000101#16 = .ld .r2 0b000000101#9 ∧
  decode 0b0011011111111110#16 = .st .r3 0b111111110#9 ∧
  decode 0b1010001000000100#16 = .ldi .r1 0b000000100#9 ∧
  decode 0b1011000000000001#16 = .sti .r0 0b000000001#9 ∧
  decode 0b0110100110111111#16 = .ldr .r4 .r6 0b111111#6 ∧
  decode 0b0111000110000011#16 = .str .r0 .r6 0b000011#6 ∧
  decode 0b1110000111111101#16 = .lea .r0 0b111111101#9 ∧
  decode 0b0000101000000010#16 = .br 0b101#3 0b000000010#9 ∧
  decode 0b1100000010000000#16 = .jmp .r2 ∧
  decode 0b0100100000001010#16 = .jsr 0b00000001010#11 ∧
  decode 0b0100000111000000#16 = .jsrr .r7 ∧
  decode 0b1000111111111111#16 = .rti ∧
  decode 0b1101000100100011#16 = .res ∧
  decode 0b1111000100100101#16 = .trapHalt ∧
  decode 0b1111000011111111#16 = .trapOther 0xFF#8

/-- Decoding the word of a well-formed instruction gives the instruction back, with every operand at every value. -/
def Obligations.DecodeOfEncodeIsTheInstruction : Prop :=
  ∀ i : Instr, i.wf = true → decode (encode i) = i

/-- The other direction: encoding what a word decodes to gives the word back in every bit but the unused ones. -/
def Obligations.EncodeOfDecodeKeepsTheUsedBits : Prop :=
  ∀ I : Word, encode (decode I) &&& usedBits I = I &&& usedBits I

/-- R71: a word that differs in unused bits alone decodes to the same instruction. UNVERIFIED: D13 (log 12). -/
def Obligations.UnusedBitsDoNotMatter : Prop :=
  ∀ I J : Word, I &&& usedBits I = J &&& usedBits I → decode J = decode I

/-! The shared operations. -/

/-- R27, R29: sign extension keeps the value read as two's complement, replicates the sign bit above bit N-1, and
leaves an N = 16 quantity as it is. -/
def Obligations.SignExtensionReplicatesTheSignBit : Prop :=
  (∀ (n : Nat) (v : BitVec n), 1 ≤ n → n ≤ 16 →
    (sext v).toInt = v.toInt ∧
    (∀ k, k < n → (sext v).getLsbD k = v.getLsbD k) ∧
    (∀ k, n ≤ k → k < 16 → (sext v).getLsbD k = v.getLsbD (n - 1))) ∧
  (∀ v : Word, sext v = v)

/-- R28, R29: `setcc` sets exactly one flag, by the value read as two's complement, whatever COND held before, and
writes nothing else. -/
def Obligations.SetccSetsExactlyOneFlagBySign : Prop :=
  ∀ (s : State) (v : Word),
    (v.toInt = 0 → (s.setcc v).cond = Flag.zero.bits) ∧
    (v.toInt < 0 → (s.setcc v).cond = Flag.negative.bits) ∧
    (0 < v.toInt → (s.setcc v).cond = Flag.positive.bits) ∧
    (∃! f : Flag, (s.setcc v).cond = f.bits) ∧
    SameRegs s (s.setcc v) ∧ (s.setcc v).pc = s.pc ∧ SameOutside s (s.setcc v)

/-- R76, R137: the three effective addresses, as sums modulo 2^16. -/
def Obligations.EffectiveAddressesWrapModulo65536 : Prop :=
  ∀ (s : State) (o9 : BitVec 9) (o11 : BitVec 11) (o6 : BitVec 6) (baseR : Reg),
    ((s.pcRel9 o9).toNat : Int) = ((s.pc.toNat : Int) + o9.toInt) % 65536 ∧
    ((s.pcRel11 o11).toNat : Int) = ((s.pc.toNat : Int) + o11.toInt) % 65536 ∧
    ((s.baseRel baseR o6).toNat : Int) = (((s.reg baseR).toNat : Int) + o6.toInt) % 65536

/-- R43, R44: the read path. A read of any address but `KBSR_ADDR`, of `KBDR_ADDR` among them, returns the stored word
and has no effect. A read of `KBSR_ADDR` takes one byte, refreshes KBSR and KBDR and returns the refreshed KBSR, and
blocks while there is no byte. The exact words are the spec's decision D6 (log 6), the blocking its D7 (log 7). -/
def Obligations.OnlyAReadOfKbsrRefreshesTheKeyboard : Prop :=
  ∀ s : State,
    (∀ a, a ≠ s.cfg.kbsrAddr → s.memRead a = some (s.mem.read a, s)) ∧
    (s.input = [] → s.memRead s.cfg.kbsrAddr = none) ∧
    (∀ b rest, s.cfg.wf = true → s.input = b :: rest →
      ∃ v s1, s.memRead s.cfg.kbsrAddr = some (v, s1) ∧
        (b ≠ 0#8 → v = 0x8000#16 ∧ (s1.mem.read s.cfg.kbdrAddr).toNat = b.toNat) ∧
        (b = 0#8 → v = 0x0000#16 ∧ s1.mem.read s.cfg.kbdrAddr = s.mem.read s.cfg.kbdrAddr) ∧
        s1.mem.read s.cfg.kbsrAddr = v ∧
        (∀ a, a ≠ s.cfg.kbsrAddr → a ≠ s.cfg.kbdrAddr → s1.mem.read a = s.mem.read a) ∧
        s1.input = rest ∧ s1.consumed = s.consumed + 1 ∧ s1.output = s.output ∧
        SameRegs s s1 ∧ s1.pc = s.pc ∧ s1.cond = s.cond ∧ SameControl s s1)

/-- R47: a word stored at `KBSR_ADDR` is never read back, and one stored at `KBDR_ADDR` is, until a refresh with a
non-zero byte. Derived by the spec from R43, R44 and R46; the words are its decision D6 (log 6). -/
def Obligations.KbsrNeverReadsAStoredWord : Prop :=
  ∀ (s : State) (x y : Word), s.cfg.wf = true →
    ((s.memWrite s.cfg.kbdrAddr y).memRead s.cfg.kbdrAddr = some (y, s.memWrite s.cfg.kbdrAddr y)) ∧
    (∀ v s1, ((s.memWrite s.cfg.kbsrAddr x).memWrite s.cfg.kbdrAddr y).memRead s.cfg.kbsrAddr = some (v, s1) →
      (v = 0x8000#16 ∧ s1.mem.read s.cfg.kbdrAddr ≠ 0x0000#16) ∨
      (v = 0x0000#16 ∧ s1.mem.read s.cfg.kbdrAddr = y))

/-- The canonical form: two memories in it that hold the same words are the same data (log 1). -/
def Obligations.EqualWordsMeanEqualMemories : Prop :=
  ∀ m n : Memory, m.wf = true → n.wf = true → (∀ a, m.read a = n.read a) → m = n

/-! Operate instructions. -/

/-- R110, R111: ADD in both modes, its flags and its frame. -/
def Obligations.AddWritesTheSumAndSetsTheFlags : Prop :=
  ∀ (dr sr1 sr2 : Reg) (imm5 : BitVec 5) (s : State),
    (∃ t, exec (.addReg dr sr1 sr2) s = .next t ∧
      (t.reg dr).toNat = ((s.reg sr1).toNat + (s.reg sr2).toNat) % 65536 ∧
      t.cond = (flagOf (t.reg dr)).bits ∧ SameRegsBut dr s t ∧ t.pc = s.pc ∧ SameOutside s t) ∧
    (∃ t, exec (.addImm dr sr1 imm5) s = .next t ∧
      ((t.reg dr).toNat : Int) = (((s.reg sr1).toNat : Int) + imm5.toInt) % 65536 ∧
      t.cond = (flagOf (t.reg dr)).bits ∧ SameRegsBut dr s t ∧ t.pc = s.pc ∧ SameOutside s t)

/-- R112, R113: AND in both modes, bit by bit, its flags and its frame. -/
def Obligations.AndWritesTheBitwiseAndAndSetsTheFlags : Prop :=
  ∀ (dr sr1 sr2 : Reg) (imm5 : BitVec 5) (s : State),
    (∃ t, exec (.andReg dr sr1 sr2) s = .next t ∧
      (∀ k, k < 16 → (t.reg dr).getLsbD k = ((s.reg sr1).getLsbD k && (s.reg sr2).getLsbD k)) ∧
      t.cond = (flagOf (t.reg dr)).bits ∧ SameRegsBut dr s t ∧ t.pc = s.pc ∧ SameOutside s t) ∧
    (∃ t, exec (.andImm dr sr1 imm5) s = .next t ∧
      (∀ k, k < 16 → (t.reg dr).getLsbD k = ((s.reg sr1).getLsbD k && imm5.getLsbD (min k 4))) ∧
      t.cond = (flagOf (t.reg dr)).bits ∧ SameRegsBut dr s t ∧ t.pc = s.pc ∧ SameOutside s t)

/-- R114: NOT, its flags and its frame. -/
def Obligations.NotWritesTheComplementAndSetsTheFlags : Prop :=
  ∀ (dr sr1 : Reg) (s : State),
    ∃ t, exec (.not dr sr1) s = .next t ∧
      t.reg dr = 0xFFFF#16 - s.reg sr1 ∧
      t.cond = (flagOf (t.reg dr)).bits ∧ SameRegsBut dr s t ∧ t.pc = s.pc ∧ SameOutside s t

/-! Data movement. -/

/-- R130, R134: LD and LDR, for every read of the read path that does not block, its keyboard effect included. -/
def Obligations.LdAndLdrLoadTheWordTheyRead : Prop :=
  ∀ (dr baseR : Reg) (o9 : BitVec 9) (o6 : BitVec 6) (s : State) (v : Word) (s1 : State),
    (s.memRead (s.pcRel9 o9) = some (v, s1) →
      ∃ t, exec (.ld dr o9) s = .next t ∧ t.reg dr = v ∧ t.cond = (flagOf v).bits ∧
        SameRegsBut dr s t ∧ t.pc = s.pc ∧ t.output = s.output ∧ SameControl s t ∧
        SameMemory s1 t ∧ SameInput s1 t) ∧
    (s.memRead (s.baseRel baseR o6) = some (v, s1) →
      ∃ t, exec (.ldr dr baseR o6) s = .next t ∧ t.reg dr = v ∧ t.cond = (flagOf v).bits ∧
        SameRegsBut dr s t ∧ t.pc = s.pc ∧ t.output = s.output ∧ SameControl s t ∧
        SameMemory s1 t ∧ SameInput s1 t)

/-- A load of plain memory: LD, LDR and LDI whose reads are none of `KBSR_ADDR` change no word and consume no byte. -/
def Obligations.LoadsOfPlainMemoryOnlyWriteTheirRegister : Prop :=
  ∀ (dr baseR : Reg) (o9 : BitVec 9) (o6 : BitVec 6) (s : State),
    (s.pcRel9 o9 ≠ s.cfg.kbsrAddr →
      ∃ t, exec (.ld dr o9) s = .next t ∧ t.reg dr = s.mem.read (s.pcRel9 o9) ∧
        t.cond = (flagOf (t.reg dr)).bits ∧ SameRegsBut dr s t ∧ t.pc = s.pc ∧ SameOutside s t) ∧
    (s.baseRel baseR o6 ≠ s.cfg.kbsrAddr →
      ∃ t, exec (.ldr dr baseR o6) s = .next t ∧ t.reg dr = s.mem.read (s.baseRel baseR o6) ∧
        t.cond = (flagOf (t.reg dr)).bits ∧ SameRegsBut dr s t ∧ t.pc = s.pc ∧ SameOutside s t) ∧
    (s.pcRel9 o9 ≠ s.cfg.kbsrAddr → s.mem.read (s.pcRel9 o9) ≠ s.cfg.kbsrAddr →
      ∃ t, exec (.ldi dr o9) s = .next t ∧ t.reg dr = s.mem.read (s.mem.read (s.pcRel9 o9)) ∧
        t.cond = (flagOf (t.reg dr)).bits ∧ SameRegsBut dr s t ∧ t.pc = s.pc ∧ SameOutside s t)

/-- R132: LDI, two sequential reads through the read path; the destination gets the second word, not the pointer. -/
def Obligations.LdiLoadsThroughThePointer : Prop :=
  ∀ (dr : Reg) (o9 : BitVec 9) (s : State) (p : Word) (s1 : State) (v : Word) (s2 : State),
    s.memRead (s.pcRel9 o9) = some (p, s1) → s1.memRead p = some (v, s2) →
      ∃ t, exec (.ldi dr o9) s = .next t ∧ t.reg dr = v ∧ t.cond = (flagOf v).bits ∧
        SameRegsBut dr s t ∧ t.pc = s.pc ∧ t.output = s.output ∧ SameControl s t ∧
        SameMemory s2 t ∧ SameInput s2 t

/-- R131, R135: ST and STR store one word, at every address, and change nothing else. -/
def Obligations.StAndStrStoreOneWord : Prop :=
  ∀ (sr baseR : Reg) (o9 : BitVec 9) (o6 : BitVec 6) (s : State),
    (∃ t, exec (.st sr o9) s = .next t ∧ t.mem.read (s.pcRel9 o9) = s.reg sr ∧
      (∀ a, a ≠ s.pcRel9 o9 → t.mem.read a = s.mem.read a) ∧
      SameRegs s t ∧ t.cond = s.cond ∧ t.pc = s.pc ∧ SameInput s t ∧ t.output = s.output ∧ SameControl s t) ∧
    (∃ t, exec (.str sr baseR o6) s = .next t ∧ t.mem.read (s.baseRel baseR o6) = s.reg sr ∧
      (∀ a, a ≠ s.baseRel baseR o6 → t.mem.read a = s.mem.read a) ∧
      SameRegs s t ∧ t.cond = s.cond ∧ t.pc = s.pc ∧ SameInput s t ∧ t.output = s.output ∧ SameControl s t)

/-- R133: STI reads its pointer first, then stores one word there; every other word is as the pointer read left it. -/
def Obligations.StiStoresThroughThePointer : Prop :=
  ∀ (sr : Reg) (o9 : BitVec 9) (s : State) (p : Word) (s1 : State),
    s.memRead (s.pcRel9 o9) = some (p, s1) →
      ∃ t, exec (.sti sr o9) s = .next t ∧ t.mem.read p = s.reg sr ∧
        (∀ a, a ≠ p → t.mem.read a = s1.mem.read a) ∧
        SameRegs s t ∧ t.cond = s.cond ∧ t.pc = s.pc ∧ SameInput s1 t ∧ t.output = s.output ∧ SameControl s t

/-- R136: LEA writes the address, sets the flags from it and accesses no memory. -/
def Obligations.LeaWritesTheAddressAndSetsTheFlags : Prop :=
  ∀ (dr : Reg) (o9 : BitVec 9) (s : State),
    ∃ t, exec (.lea dr o9) s = .next t ∧
      ((t.reg dr).toNat : Int) = ((s.pc.toNat : Int) + o9.toInt) % 65536 ∧
      t.cond = (flagOf (t.reg dr)).bits ∧ SameRegsBut dr s t ∧ t.pc = s.pc ∧ SameOutside s t

/-! Control transfer. -/

/-- R150: BR branches exactly when a bit of nzp meets the same bit of COND, relative to the incremented pc. -/
def Obligations.BrBranchesExactlyOnAMatchingFlag : Prop :=
  ∀ (nzp : BitVec 3) (o9 : BitVec 9) (s : State),
    ∃ t, exec (.br nzp o9) s = .next t ∧
      ((∃ k, k < 3 ∧ nzp.getLsbD k = true ∧ s.cond.getLsbD k = true) →
        (t.pc.toNat : Int) = ((s.pc.toNat : Int) + o9.toInt) % 65536) ∧
      ((∀ k, k < 3 → nzp.getLsbD k = true → s.cond.getLsbD k = false) → t.pc = s.pc) ∧
      SameRegs s t ∧ t.cond = s.cond ∧ SameOutside s t

/-- R34: while COND holds its reset value no BR branches, and (R77) a BR with nzp = 0b000 never does. Derived by the
spec. -/
def Obligations.NoBranchBeforeTheFirstFlag : Prop :=
  ∀ (nzp : BitVec 3) (o9 : BitVec 9) (s : State),
    s.cond = 0b000#3 ∨ nzp = 0b000#3 → exec (.br nzp o9) s = .next s

/-- R151: JMP. -/
def Obligations.JmpContinuesAtTheBaseRegister : Prop :=
  ∀ (baseR : Reg) (s : State),
    ∃ t, exec (.jmp baseR) s = .next t ∧ t.pc = s.reg baseR ∧
      SameRegs s t ∧ t.cond = s.cond ∧ SameOutside s t

/-- R152: JSR. -/
def Obligations.JsrLinksAndJumpsRelative : Prop :=
  ∀ (o11 : BitVec 11) (s : State),
    ∃ t, exec (.jsr o11) s = .next t ∧ t.reg .r7 = s.pc ∧
      (t.pc.toNat : Int) = ((s.pc.toNat : Int) + o11.toInt) % 65536 ∧
      SameRegsBut .r7 s t ∧ t.cond = s.cond ∧ SameOutside s t

/-- R153: JSRR writes R7 before it reads the base register, so `JSRR R7` continues at the next word. The order is the
spec's decision D19 (log 16). -/
def Obligations.JsrrLinksBeforeItReadsTheBase : Prop :=
  ∀ (baseR : Reg) (s : State),
    ∃ t, exec (.jsrr baseR) s = .next t ∧ t.reg .r7 = s.pc ∧
      (baseR ≠ .r7 → t.pc = s.reg baseR) ∧ (baseR = .r7 → t.pc = s.pc) ∧
      SameRegsBut .r7 s t ∧ t.cond = s.cond ∧ SameOutside s t

/-- R156, R22: a subroutine that leaves R7 alone returns with RET (`JMP R7`) to the address after the JSR or JSRR. -/
def Obligations.RetReturnsToTheAddressAfterTheCall : Prop :=
  ∀ (i : Instr) (s t u : State), (∃ o11, i = .jsr o11) ∨ (∃ baseR, i = .jsrr baseR) →
    exec i s = .next t → u.reg .r7 = t.reg .r7 →
      ∃ v, exec (.jmp .r7) u = .next v ∧ v.pc = s.pc ∧ SameRegs u v ∧ v.cond = u.cond ∧ SameOutside u v

/-! Fatal stops. -/

/-- R154, R155, R201: RTI and RES always stop with code 10 and change nothing else (the pc was incremented before).
The state at a stop is not to be relied on (R200, D15, log 14); the run state is. -/
def Obligations.RtiAndResStopWithCode10 : Prop :=
  ∀ (i : Instr) (s : State), i = .rti ∨ i = .res →
    ∃ t c, exec i s = .next t ∧ t.run = .fatal c ∧ c.code = 10 ∧
      t.run.terminationCode = some 10 ∧ SameRegs s t ∧ t.pc = s.pc ∧ t.cond = s.cond ∧ SameMemory s t ∧ SameInput s t ∧ t.output = s.output ∧
      t.cfg = s.cfg ∧ t.waiting = s.waiting

/-- R177, R202: a TRAP with any vector outside 0x20..0x25 stops with code 21, through its own row and through the
dispatcher, and writes no output and no register; with the parameter `TRAP_WRITES_R7` on, R170's first line has
written R7 (log 21). -/
def Obligations.UnknownTrapVectorsStopWithCode21 : Prop :=
  ∀ (v : BitVec 8) (s : State), v.toNat < 0x20 ∨ 0x25 < v.toNat →
    ∃ t c, exec (.trapOther v) s = .next t ∧ exec (.trap v) s = .next t ∧
      t.run = .fatal c ∧ c.code = 21 ∧
      t.run.terminationCode = some 21 ∧ SameRegsAfterTrapEnter s t ∧ t.pc = s.pc ∧ t.cond = s.cond ∧ SameMemory s t ∧ SameInput s t ∧
      t.output = s.output ∧ t.cfg = s.cfg ∧ t.waiting = s.waiting

/-- R95: HALTED and FATAL are terminal; HALTED is reached only via the HALT trap; FATAL is reached only by RTI and RES
(R201) and by an unknown trap vector (R202), so never with code 20 (R203). -/
def Obligations.TerminalStatesAndTheirOnlyCauses : Prop :=
  (∀ s : State, s.run ≠ .running → ∀ t, step s ≠ .next t) ∧
  (∀ s t : State, step s = .next t → t.run = .halted →
    ∃ I s1, s.unblock.memRead s.pc = some (I, s1) ∧ decode I = .trapHalt) ∧
  (∀ (s t : State) (c : FatalCode), step s = .next t → t.run = .fatal c →
    ∃ I s1, s.unblock.memRead s.pc = some (I, s1) ∧
      ((c.code = 10 ∧ (decode I = .rti ∨ decode I = .res)) ∨
       (c.code = 21 ∧ ∃ v, decode I = .trapOther v)))

/-! TRAP. -/

/-- R170: the dispatcher completes on every vector and does what the row of the vector does. That it saves nothing
and runs the routine within its cycle are the spec's decisions D12 and D23 (log 11, log 24). -/
def Obligations.TrapDoesWhatTheRowOfItsVectorDoes : Prop :=
  ∀ (v : BitVec 8) (s : State),
    (∃ t, exec (.trap v) s = .next t ∧ exec (trapRow v) s = .next t) ∧
    (v = 0x20#8 → trapRow v = .trapGetc) ∧ (v = 0x21#8 → trapRow v = .trapOut) ∧
    (v = 0x22#8 → trapRow v = .trapPuts) ∧ (v = 0x23#8 → trapRow v = .trapIn) ∧
    (v = 0x24#8 → trapRow v = .trapPutsp) ∧ (v = 0x25#8 → trapRow v = .trapHalt) ∧
    (v.toNat < 0x20 ∨ 0x25 < v.toNat → trapRow v = .trapOther v) ∧
    (∀ I : Word, decodeForm I = .trap v → decode I = trapRow v)

/-- R171: GETC stores exactly one byte, zero-extended, in R0. -/
def Obligations.GetcStoresOneByteInR0 : Prop :=
  ∀ (s : State) (b : Byte) (rest : List Byte), s.input = b :: rest →
    ∃ t, exec .trapGetc s = .next t ∧ (t.reg .r0).toNat = b.toNat ∧
      (∀ r, r ≠ .r0 → t.reg r = s.regAfterTrapEnter r) ∧ t.pc = s.pc ∧ t.cond = s.cond ∧ SameMemory s t ∧
      t.input = rest ∧ t.consumed = s.consumed + 1 ∧ t.output = s.output ∧ SameControl s t

/-- R172: OUT writes the low 8 bits of R0 and then the terminator, for every terminator (D9, log 9). -/
def Obligations.OutWritesTheCharacterAndTheTerminator : Prop :=
  ∀ s : State,
    ∃ t b, exec .trapOut s = .next t ∧ b.toNat = (s.reg .r0).toNat % 256 ∧
      t.output = s.output ++ b :: s.cfg.outTerminator ∧
      SameRegsAfterTrapEnter s t ∧ t.pc = s.pc ∧ t.cond = s.cond ∧ SameMemory s t ∧ SameInput s t ∧
      SameControl s t

/-- R173: PUTS outputs the low byte of each word of a string, up to a zero word or the end of memory. The scan's end
at 0xFFFF is the spec's decision D21 (log 17), that no register changes its D25 (log 20). -/
def Obligations.PutsOutputsTheString : Prop :=
  ∀ (s : State) (ws : List Word), s.holdsString (s.reg .r0) ws →
    ∃ t, exec .trapPuts s = .next t ∧ t.output = s.output ++ ws.map character ∧
      SameRegsAfterTrapEnter s t ∧ t.pc = s.pc ∧ t.cond = s.cond ∧ SameMemory s t ∧ SameInput s t ∧
      SameControl s t

/-- R174: IN writes the prompt, for every prompt (D10, log 10), then stores one byte in R0, with no echo and no flag
(D24, log 20). -/
def Obligations.InPromptsAndStoresOneByteInR0 : Prop :=
  ∀ (s : State) (b : Byte) (rest : List Byte), s.input = b :: rest →
    ∃ t, exec .trapIn s = .next t ∧ (t.reg .r0).toNat = b.toNat ∧
      t.output = s.output ++ s.cfg.inPrompt ∧
      (∀ r, r ≠ .r0 → t.reg r = s.regAfterTrapEnter r) ∧ t.pc = s.pc ∧ t.cond = s.cond ∧ SameMemory s t ∧
      t.input = rest ∧ t.consumed = s.consumed + 1 ∧ SameControl s t

/-- R175: PUTSP outputs, for each word of a string, the low byte and then the high byte only if it is not zero. D21
and D25 as in PUTS (log 17, log 20). -/
def Obligations.PutspOutputsThePackedString : Prop :=
  ∀ (s : State) (ws : List Word), s.holdsString (s.reg .r0) ws →
    ∃ t, exec .trapPutsp s = .next t ∧
      t.output = s.output ++ ws.flatMap packedCharacters ∧
      SameRegsAfterTrapEnter s t ∧ t.pc = s.pc ∧ t.cond = s.cond ∧ SameMemory s t ∧ SameInput s t ∧
      SameControl s t

/-- R176: HALT emits the shutdown message, for every message (D11, log 10), and halts; HALTED reports the termination
code 0 (R90; D22, log 25). -/
def Obligations.HaltEmitsTheMessageAndHalts : Prop :=
  ∀ s : State,
    ∃ t, exec .trapHalt s = .next t ∧ t.run = .halted ∧ t.run.terminationCode = some 0 ∧
      t.output = s.output ++ s.cfg.haltMessage ∧
      SameRegsAfterTrapEnter s t ∧ t.pc = s.pc ∧ t.cond = s.cond ∧ SameMemory s t ∧ SameInput s t ∧
      t.cfg = s.cfg ∧ t.waiting = s.waiting

/-! Waiting for input. -/

/-- R96: an input request with no byte leaves the cycle waiting, RUNNING, with what came before it done (the pc
increment, IN's prompt) and nothing after it; a fetch that waits has not incremented the pc. D7 (log 7). -/
def Obligations.InputRequestsWaitWhileThereIsNoByte : Prop :=
  ∀ (s : State), s.input = [] → s.run = .running → s.waiting = none →
    (∀ i : Instr,
      (i = .trapGetc ∨ i = .trapIn ∨
        (∃ dr o9, i = .ld dr o9 ∧ s.pcRel9 o9 = s.cfg.kbsrAddr) ∨
        (∃ dr baseR o6, i = .ldr dr baseR o6 ∧ s.baseRel baseR o6 = s.cfg.kbsrAddr) ∨
        (∃ dr o9, i = .ldi dr o9 ∧
          (s.pcRel9 o9 = s.cfg.kbsrAddr ∨ s.mem.read (s.pcRel9 o9) = s.cfg.kbsrAddr)) ∨
        (∃ sr o9, i = .sti sr o9 ∧ s.pcRel9 o9 = s.cfg.kbsrAddr)) →
      ∃ t, exec i s = .next t ∧ t.waiting ≠ none ∧ t.run = .running ∧
        t.output = (if i = .trapIn then s.output ++ s.cfg.inPrompt else s.output) ∧
        (∀ r, t.reg r = if isTrap i = true then s.regAfterTrapEnter r else s.reg r) ∧
        t.pc = s.pc ∧ t.cond = s.cond ∧ SameMemory s t ∧ SameInput s t ∧ t.cfg = s.cfg) ∧
    (s.pc = s.cfg.kbsrAddr →
      ∃ t, step s = .next t ∧ t.waiting = some .fetch ∧ t.run = .running ∧ t.pc = s.pc ∧
        SameRegs s t ∧ t.cond = s.cond ∧ SameMemory s t ∧ SameInput s t ∧ t.output = s.output ∧ t.cfg = s.cfg)

/-- R96: a scan of PUTS that reaches `KBSR_ADDR` with no byte of input waits there with the characters before it
already output. That the scan reads through the keyboard is the spec's decision D14 (log 13). -/
def Obligations.PutsWaitsAtKbsrAfterItsOutput : Prop :=
  ∀ (s : State) (ws : List Word),
    s.holdsWords (s.reg .r0) ws → (∀ w ∈ ws, w ≠ 0x0000#16) →
    (s.reg .r0).toNat + ws.length = s.cfg.kbsrAddr.toNat → s.input = [] →
      (∃ t, exec .trapPuts s = .next t ∧ t.waiting = some (.puts s.cfg.kbsrAddr) ∧ t.run = s.run ∧
        t.output = s.output ++ ws.map character ∧ SameRegsAfterTrapEnter s t ∧ t.pc = s.pc ∧ t.cond = s.cond ∧
        SameMemory s t ∧ SameInput s t ∧ t.cfg = s.cfg) ∧
      (∃ t, exec .trapPutsp s = .next t ∧ t.waiting = some (.putsp s.cfg.kbsrAddr) ∧ t.run = s.run ∧
        t.output = s.output ++ ws.flatMap packedCharacters ∧
        SameRegsAfterTrapEnter s t ∧ t.pc = s.pc ∧ t.cond = s.cond ∧
        SameMemory s t ∧ SameInput s t ∧ t.cfg = s.cfg)

/-- R215(a): while a cycle waits, all state is kept; a step with no byte of input changes nothing. -/
def Obligations.WaitingKeepsAllState : Prop :=
  ∀ s : State, s.Inv → s.waiting ≠ none → s.input = [] → step s = .next s

/-- R215(a), R96: the arrival of a byte ends the wait. The next step takes at least one byte and the cycle no longer
stands at that request: it has ended, or, for an LDI whose pointer read waited, it stands at its second read, a
request of its own. That a wait is a state which a later step ends is the model's form (log 7). -/
def Obligations.AByteEndsTheWait : Prop :=
  ∀ s : State, s.Inv → s.waiting ≠ none → s.input ≠ [] →
    ∃ t, step s = .next t ∧ s.consumed < t.consumed ∧ t.waiting ≠ s.waiting ∧
      (t.waiting = none ∨
        ∃ dr ea p, s.waiting = some (.loadPointer dr ea) ∧ t.waiting = some (.load dr p))

/-- R96: a wait leaves no trace. Whatever step leaves a cycle waiting, the cycle that then gets the bytes `bs` ends
exactly as if they had been there when the step began. The model's form of the wait is log 7. -/
def Obligations.AWaitLeavesNoTrace : Prop :=
  ∀ (s t : State) (bs : List Byte), step s = .next t → t.waiting ≠ none →
    step (t.supply bs) = step (s.supply bs)

/-! The whole machine. -/

/-- R91 to R94: a step that begins a cycle runs the instruction its fetched word decodes to, with the pc incremented;
and where the word at the pc is the word of a well-formed instruction, it runs that instruction. -/
def Obligations.StepRunsTheDecodedInstruction : Prop :=
  (∀ (s : State) (I : Word) (s1 : State), s.run = .running →
    s.waiting = none ∨ s.waiting = some .fetch → s.unblock.memRead s.pc = some (I, s1) →
      step s = exec (decode I) (s1.writePc (s.pc + 1#16))) ∧
  (∀ (s : State) (i : Instr), s.run = .running → s.waiting = none → s.pc ≠ s.cfg.kbsrAddr →
    i.wf = true → s.mem.read s.pc = encode i → step s = exec i (s.writePc (s.pc + 1#16)))

/-- R204, R236: a RUNNING core always has a next state: no instruction, operand or address makes a step fail. That a
step which waits for input has one is the model's form of the wait (log 7: R236 itself speaks of the steps that do not
wait), and that a fatal stop is one, with FATAL in it, is its form of the stop (log 14). -/
def Obligations.ARunningCoreAlwaysSteps : Prop :=
  ∀ s : State, s.run = .running → ∃ t, step s = .next t

/-- The invariant holds after every step from every state that meets it. -/
def Obligations.StepKeepsTheInvariant : Prop :=
  ∀ s t : State, s.Inv → step s = .next t → t.Inv

/-- R26: COND is written by the flag-setting instructions alone. That IN writes no flag is the spec's decision D24
(log 20). -/
def Obligations.OnlyFlagSettingInstructionsWriteCond : Prop :=
  ∀ (i : Instr) (s t : State), exec i s = .next t → flagSetting i = false → t.cond = s.cond

/-- R21, R178: an instruction writes no general register but its destination, and TRAP writes R7 only where
`TRAP_WRITES_R7` is on (D12, log 11). -/
def Obligations.OnlyTheDestinationRegisterIsWritten : Prop :=
  ∀ (i : Instr) (s t : State) (r : Reg), exec i s = .next t → destination i ≠ some r →
    (isTrap i = true → r = .r7 → s.cfg.trapWritesR7 = false) → t.reg r = s.reg r

/-- R58, R43, R46: an instruction that accesses no memory after its fetch changes none; one that only reads changes no
word but the two keyboard registers, and not even those unless it consumed a byte, which is what a refresh does. -/
def Obligations.OnlyStoresAndTheRefreshChangeMemory : Prop :=
  ∀ (i : Instr) (s t : State), exec i s = .next t →
    (accessOf i = .nothing → SameMemory s t) ∧
    (accessOf i = .reads →
      (∀ a, a ≠ s.cfg.kbsrAddr → a ≠ s.cfg.kbdrAddr → t.mem.read a = s.mem.read a) ∧
      (t.consumed = s.consumed → SameMemory s t))

/-- R179, R31, R11: every step only appends to the output, takes bytes only from the front of the input and counts
them, and writes no parameter. One shared channel is the spec's decision D7, the sink its D8 (log 7, log 22). -/
def Obligations.ChannelsAdvanceInOrder : Prop :=
  ∀ s t : State, step s = .next t →
    (∃ bs, t.output = s.output ++ bs) ∧
    (∃ taken, s.input = taken ++ t.input ∧ t.consumed = s.consumed + taken.length) ∧
    t.cfg = s.cfg

/-- R56: a store is seen by the very next fetch. A step that runs `ST SR, #0` is followed by a step that runs the
word it stored. Derived by the spec from R40, R45 and R53. -/
def Obligations.TheNextFetchSeesTheStore : Prop :=
  ∀ (s : State) (sr : Reg), s.run = .running → s.waiting = none → s.pc ≠ s.cfg.kbsrAddr →
    s.pc + 1#16 ≠ s.cfg.kbsrAddr → s.mem.read s.pc = encode (.st sr 0#9) →
      ∃ t, step s = .next t ∧ t.mem.read (s.pc + 1#16) = s.reg sr ∧
        step t = exec (decode (s.reg sr)) (t.writePc (s.pc + 2#16))

/-- R56, R206: a fetch from `KBSR_ADDR` consumes a byte and runs the refreshed word: after a non-zero byte the core
stops with code 10, after a zero byte it goes on as after a no-operation. Derived by the spec; the words are its
decision D6 (log 6), the opcode numbers its D2 (log 4). -/
def Obligations.AFetchFromKbsrRunsTheRefreshedWord : Prop :=
  ∀ (s : State) (b : Byte) (rest : List Byte), s.cfg.wf = true → s.run = .running → s.waiting = none →
    s.pc = s.cfg.kbsrAddr → s.input = b :: rest →
      ∃ t, step s = .next t ∧ t.pc = s.pc + 1#16 ∧ t.input = rest ∧ SameRegs s t ∧ t.cond = s.cond ∧
        t.output = s.output ∧
        (b ≠ 0#8 → t.run = .fatal .rtiOrRes ∧ (t.mem.read s.cfg.kbdrAddr).toNat = b.toNat) ∧
        (b = 0#8 → t.run = .running ∧ t.mem.read s.cfg.kbdrAddr = s.mem.read s.cfg.kbdrAddr)

/-- R233: a program that runs into zeroed memory executes no-operations there: after `k` steps over `k` zero words,
none of them at `KBSR_ADDR`, only the pc has moved, by `k` modulo 2^16. Derived by the spec. -/
def Obligations.ZeroedMemoryRunsAsNoOperations : Prop :=
  ∀ (k : Nat) (s : State), s.run = .running → s.waiting = none →
    (∀ i, i < k → s.mem.read (s.pc + BitVec.ofNat 16 i) = 0x0000#16 ∧
      s.pc + BitVec.ofNat 16 i ≠ s.cfg.kbsrAddr) →
      Sys2Proof.core.run k s = .next (s.writePc (s.pc + BitVec.ofNat 16 k))

/-! BR against the flags, and strings that cross `KBSR_ADDR`. -/

/-- R25, R28, R70, R150: the bits of COND are the bits of BR. After a result `v`, a BR with n alone branches exactly
if `v` is negative, with z alone exactly if it is zero, with p alone exactly if it is positive; and n, z and p are the
bits 11, 10 and 9 of the word. The three bit values and the positions are the spec's decisions D4 and D3 (log 5), the
opcode number of BR its D2 (log 4). -/
def Obligations.BrTestsTheSignOfTheLastResult : Prop :=
  (Flag.negative.bits = 0b100#3 ∧ Flag.zero.bits = 0b010#3 ∧ Flag.positive.bits = 0b001#3) ∧
  (∀ (v : Word) (o9 : BitVec 9) (s : State),
    (exec (.br 0b100#3 o9) (s.setcc v) =
      .next (if v.toInt < 0 then (s.setcc v).writePc (s.pcRel9 o9) else s.setcc v)) ∧
    (exec (.br 0b010#3 o9) (s.setcc v) =
      .next (if v.toInt = 0 then (s.setcc v).writePc (s.pcRel9 o9) else s.setcc v)) ∧
    (exec (.br 0b001#3 o9) (s.setcc v) =
      .next (if 0 < v.toInt then (s.setcc v).writePc (s.pcRel9 o9) else s.setcc v))) ∧
  (∀ I : Word, I.toNat / 4096 = 0 →
    ∃ nzp o9, decode I = .br nzp o9 ∧ o9.toNat = I.toNat % 512 ∧
      nzp.getLsbD 2 = I.getLsbD 11 ∧ nzp.getLsbD 1 = I.getLsbD 10 ∧ nzp.getLsbD 0 = I.getLsbD 9)

/-- R173, R175, corner cases: a scan that reaches `KBSR_ADDR` with a byte of input refreshes the keyboard there, once.
After a zero byte it stops; after a non-zero byte it outputs the characters of the refreshed 0x8000 (0x00, and 0x80
for PUTSP) and goes on behind `KBSR_ADDR`, where it reads memory as the refresh left it, KBDR included, unless
`KBSR_ADDR` is the end of memory. That the scan reads through the keyboard is the spec's decision D14 (log 13), the
words its D6 (log 6), the end at 0xFFFF its D21 (log 17), that no register changes its D25 (log 20). -/
def Obligations.StringsAcrossKbsrRefreshTheKeyboardOnce : Prop :=
  ∀ (s : State) (ws : List Word) (b : Byte) (rest : List Byte), s.cfg.wf = true →
    s.holdsWords (s.reg .r0) ws → (∀ w ∈ ws, w ≠ 0x0000#16) →
    (s.reg .r0).toNat + ws.length = s.cfg.kbsrAddr.toNat → s.input = b :: rest →
    ∃ t u cs ds, exec .trapPuts s = .next t ∧ exec .trapPutsp s = .next u ∧
      t.output = s.output ++ ws.map character ++ cs ∧
      u.output = s.output ++ ws.flatMap packedCharacters ++ ds ∧
      (b = 0x00#8 → cs = [] ∧ ds = []) ∧
      (b ≠ 0x00#8 → s.cfg.kbsrAddr = 0xFFFF#16 → cs = [0x00#8] ∧ ds = [0x00#8, 0x80#8]) ∧
      (b ≠ 0x00#8 → s.cfg.kbsrAddr ≠ 0xFFFF#16 → ∀ (v : Word) (s1 : State) (ws1 : List Word),
        s.memRead s.cfg.kbsrAddr = some (v, s1) → s1.holdsString (s.cfg.kbsrAddr + 1#16) ws1 →
          cs = 0x00#8 :: ws1.map character ∧ ds = 0x00#8 :: 0x80#8 :: ws1.flatMap packedCharacters) ∧
      OneRefresh b rest s t ∧ SameRegsAfterTrapEnter s t ∧ t.pc = s.pc ∧ t.cond = s.cond ∧ SameControl s t ∧
      OneRefresh b rest s u ∧ SameRegsAfterTrapEnter s u ∧ u.pc = s.pc ∧ u.cond = s.cond ∧ SameControl s u
end

