-- ==== Sys2Proof/Laws/Decode.lean ====
section
/-! SUPPORT. The laws of decoding and encoding: each field of each format reads back as what was put there. -/

namespace Sys2Proof

@[simp] theorem Reg.ofField_field (r : Reg) : Reg.ofField r.field = r := by cases r <;> rfl

@[simp] theorem Reg.field_ofField (f : BitVec 3) : (Reg.ofField f).field = f := by
  revert f; decide

@[simp] theorem Opcode.ofField_field (o : Opcode) : Opcode.ofField o.field = o := by cases o <;> rfl

@[simp] theorem Opcode.field_ofField (f : BitVec 4) : (Opcode.ofField f).field = f := by
  revert f; decide

/-! Format OPR. -/

@[simp] theorem bits_encodeOPR_12 (op : Opcode) (dr sr1 sr2 : Reg) :
    bits (encodeOPR op dr sr1 sr2) 12 4 = op.field := by
  unfold bits encodeOPR
  change BitVec.extractLsb' (n := 4 + 3 + 3 + 1 + 2 + 3) 12 4 _ = _
  simp (disch := decide) [-Nat.reduceAdd, BitVec.extractLsb'_append_eq_of_le]

@[simp] theorem bits_encodeOPR_9 (op : Opcode) (dr sr1 sr2 : Reg) :
    bits (encodeOPR op dr sr1 sr2) 9 3 = dr.field := by
  unfold bits encodeOPR
  change BitVec.extractLsb' (n := 4 + 3 + 3 + 1 + 2 + 3) 9 3 _ = _
  simp (disch := decide) [-Nat.reduceAdd, BitVec.extractLsb'_append_eq_of_le,
    BitVec.extractLsb'_append_eq_of_add_le]

@[simp] theorem bits_encodeOPR_6 (op : Opcode) (dr sr1 sr2 : Reg) :
    bits (encodeOPR op dr sr1 sr2) 6 3 = sr1.field := by
  unfold bits encodeOPR
  change BitVec.extractLsb' (n := 4 + 3 + 3 + 1 + 2 + 3) 6 3 _ = _
  simp (disch := decide) [-Nat.reduceAdd, BitVec.extractLsb'_append_eq_of_le,
    BitVec.extractLsb'_append_eq_of_add_le]

@[simp] theorem bits_encodeOPR_5 (op : Opcode) (dr sr1 sr2 : Reg) :
    bits (encodeOPR op dr sr1 sr2) 5 1 = 0#1 := by
  unfold bits encodeOPR
  change BitVec.extractLsb' (n := 4 + 3 + 3 + 1 + 2 + 3) 5 1 _ = _
  simp (disch := decide) [-Nat.reduceAdd, BitVec.extractLsb'_append_eq_of_le,
    BitVec.extractLsb'_append_eq_of_add_le]

@[simp] theorem bits_encodeOPR_0 (op : Opcode) (dr sr1 sr2 : Reg) :
    bits (encodeOPR op dr sr1 sr2) 0 3 = sr2.field := by
  unfold bits encodeOPR
  change BitVec.extractLsb' (n := 4 + 3 + 3 + 1 + 2 + 3) 0 3 _ = _
  simp (disch := decide) [-Nat.reduceAdd, BitVec.extractLsb'_append_eq_of_add_le]

/-! Format OPI. -/

@[simp] theorem bits_encodeOPI_12 (op : Opcode) (dr sr1 : Reg) (imm5 : BitVec 5) :
    bits (encodeOPI op dr sr1 imm5) 12 4 = op.field := by
  unfold bits encodeOPI
  change BitVec.extractLsb' (n := 4 + 3 + 3 + 1 + 5) 12 4 _ = _
  simp (disch := decide) [-Nat.reduceAdd, BitVec.extractLsb'_append_eq_of_le]

@[simp] theorem bits_encodeOPI_9 (op : Opcode) (dr sr1 : Reg) (imm5 : BitVec 5) :
    bits (encodeOPI op dr sr1 imm5) 9 3 = dr.field := by
  unfold bits encodeOPI
  change BitVec.extractLsb' (n := 4 + 3 + 3 + 1 + 5) 9 3 _ = _
  simp (disch := decide) [-Nat.reduceAdd, BitVec.extractLsb'_append_eq_of_le,
    BitVec.extractLsb'_append_eq_of_add_le]

@[simp] theorem bits_encodeOPI_6 (op : Opcode) (dr sr1 : Reg) (imm5 : BitVec 5) :
    bits (encodeOPI op dr sr1 imm5) 6 3 = sr1.field := by
  unfold bits encodeOPI
  change BitVec.extractLsb' (n := 4 + 3 + 3 + 1 + 5) 6 3 _ = _
  simp (disch := decide) [-Nat.reduceAdd, BitVec.extractLsb'_append_eq_of_le,
    BitVec.extractLsb'_append_eq_of_add_le]

@[simp] theorem bits_encodeOPI_5 (op : Opcode) (dr sr1 : Reg) (imm5 : BitVec 5) :
    bits (encodeOPI op dr sr1 imm5) 5 1 = 1#1 := by
  unfold bits encodeOPI
  change BitVec.extractLsb' (n := 4 + 3 + 3 + 1 + 5) 5 1 _ = _
  simp (disch := decide) [-Nat.reduceAdd, BitVec.extractLsb'_append_eq_of_le,
    BitVec.extractLsb'_append_eq_of_add_le]

@[simp] theorem bits_encodeOPI_0 (op : Opcode) (dr sr1 : Reg) (imm5 : BitVec 5) :
    bits (encodeOPI op dr sr1 imm5) 0 5 = imm5 := by
  unfold bits encodeOPI
  change BitVec.extractLsb' (n := 4 + 3 + 3 + 1 + 5) 0 5 _ = _
  simp (disch := decide) [-Nat.reduceAdd, BitVec.extractLsb'_append_eq_of_add_le]

/-! Format NOT. -/

@[simp] theorem bits_encodeNOT_12 (op : Opcode) (dr sr1 : Reg) :
    bits (encodeNOT op dr sr1) 12 4 = op.field := by
  unfold bits encodeNOT
  change BitVec.extractLsb' (n := 4 + 3 + 3 + 6) 12 4 _ = _
  simp (disch := decide) [-Nat.reduceAdd, BitVec.extractLsb'_append_eq_of_le]

@[simp] theorem bits_encodeNOT_9 (op : Opcode) (dr sr1 : Reg) :
    bits (encodeNOT op dr sr1) 9 3 = dr.field := by
  unfold bits encodeNOT
  change BitVec.extractLsb' (n := 4 + 3 + 3 + 6) 9 3 _ = _
  simp (disch := decide) [-Nat.reduceAdd, BitVec.extractLsb'_append_eq_of_le,
    BitVec.extractLsb'_append_eq_of_add_le]

@[simp] theorem bits_encodeNOT_6 (op : Opcode) (dr sr1 : Reg) :
    bits (encodeNOT op dr sr1) 6 3 = sr1.field := by
  unfold bits encodeNOT
  change BitVec.extractLsb' (n := 4 + 3 + 3 + 6) 6 3 _ = _
  simp (disch := decide) [-Nat.reduceAdd, BitVec.extractLsb'_append_eq_of_le,
    BitVec.extractLsb'_append_eq_of_add_le]

/-! Format PCR. -/

@[simp] theorem bits_encodePCR_12 (op : Opcode) (r : Reg) (off : BitVec 9) :
    bits (encodePCR op r off) 12 4 = op.field := by
  unfold bits encodePCR
  change BitVec.extractLsb' (n := 4 + 3 + 9) 12 4 _ = _
  simp (disch := decide) [-Nat.reduceAdd, BitVec.extractLsb'_append_eq_of_le]

@[simp] theorem bits_encodePCR_9 (op : Opcode) (r : Reg) (off : BitVec 9) :
    bits (encodePCR op r off) 9 3 = r.field := by
  unfold bits encodePCR
  change BitVec.extractLsb' (n := 4 + 3 + 9) 9 3 _ = _
  simp (disch := decide) [-Nat.reduceAdd, BitVec.extractLsb'_append_eq_of_le,
    BitVec.extractLsb'_append_eq_of_add_le]

@[simp] theorem bits_encodePCR_0 (op : Opcode) (r : Reg) (off : BitVec 9) :
    bits (encodePCR op r off) 0 9 = off := by
  unfold bits encodePCR
  change BitVec.extractLsb' (n := 4 + 3 + 9) 0 9 _ = _
  simp (disch := decide) [-Nat.reduceAdd, BitVec.extractLsb'_append_eq_of_add_le]

/-! Format BOF. -/

@[simp] theorem bits_encodeBOF_12 (op : Opcode) (r baseR : Reg) (off : BitVec 6) :
    bits (encodeBOF op r baseR off) 12 4 = op.field := by
  unfold bits encodeBOF
  change BitVec.extractLsb' (n := 4 + 3 + 3 + 6) 12 4 _ = _
  simp (disch := decide) [-Nat.reduceAdd, BitVec.extractLsb'_append_eq_of_le]

@[simp] theorem bits_encodeBOF_9 (op : Opcode) (r baseR : Reg) (off : BitVec 6) :
    bits (encodeBOF op r baseR off) 9 3 = r.field := by
  unfold bits encodeBOF
  change BitVec.extractLsb' (n := 4 + 3 + 3 + 6) 9 3 _ = _
  simp (disch := decide) [-Nat.reduceAdd, BitVec.extractLsb'_append_eq_of_le,
    BitVec.extractLsb'_append_eq_of_add_le]

@[simp] theorem bits_encodeBOF_6 (op : Opcode) (r baseR : Reg) (off : BitVec 6) :
    bits (encodeBOF op r baseR off) 6 3 = baseR.field := by
  unfold bits encodeBOF
  change BitVec.extractLsb' (n := 4 + 3 + 3 + 6) 6 3 _ = _
  simp (disch := decide) [-Nat.reduceAdd, BitVec.extractLsb'_append_eq_of_le,
    BitVec.extractLsb'_append_eq_of_add_le]

@[simp] theorem bits_encodeBOF_0 (op : Opcode) (r baseR : Reg) (off : BitVec 6) :
    bits (encodeBOF op r baseR off) 0 6 = off := by
  unfold bits encodeBOF
  change BitVec.extractLsb' (n := 4 + 3 + 3 + 6) 0 6 _ = _
  simp (disch := decide) [-Nat.reduceAdd, BitVec.extractLsb'_append_eq_of_add_le]

/-! Format BRF. -/

@[simp] theorem bits_encodeBRF_12 (op : Opcode) (nzp : BitVec 3) (off : BitVec 9) :
    bits (encodeBRF op nzp off) 12 4 = op.field := by
  unfold bits encodeBRF
  change BitVec.extractLsb' (n := 4 + 3 + 9) 12 4 _ = _
  simp (disch := decide) [-Nat.reduceAdd, BitVec.extractLsb'_append_eq_of_le]

@[simp] theorem bits_encodeBRF_9 (op : Opcode) (nzp : BitVec 3) (off : BitVec 9) :
    bits (encodeBRF op nzp off) 9 3 = nzp := by
  unfold bits encodeBRF
  change BitVec.extractLsb' (n := 4 + 3 + 9) 9 3 _ = _
  simp (disch := decide) [-Nat.reduceAdd, BitVec.extractLsb'_append_eq_of_le,
    BitVec.extractLsb'_append_eq_of_add_le]

@[simp] theorem bits_encodeBRF_0 (op : Opcode) (nzp : BitVec 3) (off : BitVec 9) :
    bits (encodeBRF op nzp off) 0 9 = off := by
  unfold bits encodeBRF
  change BitVec.extractLsb' (n := 4 + 3 + 9) 0 9 _ = _
  simp (disch := decide) [-Nat.reduceAdd, BitVec.extractLsb'_append_eq_of_add_le]

/-! Format JMPF. -/

@[simp] theorem bits_encodeJMPF_12 (op : Opcode) (baseR : Reg) :
    bits (encodeJMPF op baseR) 12 4 = op.field := by
  unfold bits encodeJMPF
  change BitVec.extractLsb' (n := 4 + 3 + 3 + 6) 12 4 _ = _
  simp (disch := decide) [-Nat.reduceAdd, BitVec.extractLsb'_append_eq_of_le]

@[simp] theorem bits_encodeJMPF_6 (op : Opcode) (baseR : Reg) :
    bits (encodeJMPF op baseR) 6 3 = baseR.field := by
  unfold bits encodeJMPF
  change BitVec.extractLsb' (n := 4 + 3 + 3 + 6) 6 3 _ = _
  simp (disch := decide) [-Nat.reduceAdd, BitVec.extractLsb'_append_eq_of_le,
    BitVec.extractLsb'_append_eq_of_add_le]

/-! Format JSRF. -/

@[simp] theorem bits_encodeJSRF_12 (op : Opcode) (off : BitVec 11) :
    bits (encodeJSRF op off) 12 4 = op.field := by
  unfold bits encodeJSRF
  change BitVec.extractLsb' (n := 4 + 1 + 11) 12 4 _ = _
  simp (disch := decide) [-Nat.reduceAdd, BitVec.extractLsb'_append_eq_of_le]

@[simp] theorem bits_encodeJSRF_11 (op : Opcode) (off : BitVec 11) :
    bits (encodeJSRF op off) 11 1 = 1#1 := by
  unfold bits encodeJSRF
  change BitVec.extractLsb' (n := 4 + 1 + 11) 11 1 _ = _
  simp (disch := decide) [-Nat.reduceAdd, BitVec.extractLsb'_append_eq_of_le,
    BitVec.extractLsb'_append_eq_of_add_le]

@[simp] theorem bits_encodeJSRF_0 (op : Opcode) (off : BitVec 11) :
    bits (encodeJSRF op off) 0 11 = off := by
  unfold bits encodeJSRF
  change BitVec.extractLsb' (n := 4 + 1 + 11) 0 11 _ = _
  simp (disch := decide) [-Nat.reduceAdd, BitVec.extractLsb'_append_eq_of_add_le]

/-! Format JSRRF. -/

@[simp] theorem bits_encodeJSRRF_12 (op : Opcode) (baseR : Reg) :
    bits (encodeJSRRF op baseR) 12 4 = op.field := by
  unfold bits encodeJSRRF
  change BitVec.extractLsb' (n := 4 + 1 + 2 + 3 + 6) 12 4 _ = _
  simp (disch := decide) [-Nat.reduceAdd, BitVec.extractLsb'_append_eq_of_le]

@[simp] theorem bits_encodeJSRRF_11 (op : Opcode) (baseR : Reg) :
    bits (encodeJSRRF op baseR) 11 1 = 0#1 := by
  unfold bits encodeJSRRF
  change BitVec.extractLsb' (n := 4 + 1 + 2 + 3 + 6) 11 1 _ = _
  simp (disch := decide) [-Nat.reduceAdd, BitVec.extractLsb'_append_eq_of_le,
    BitVec.extractLsb'_append_eq_of_add_le]

@[simp] theorem bits_encodeJSRRF_6 (op : Opcode) (baseR : Reg) :
    bits (encodeJSRRF op baseR) 6 3 = baseR.field := by
  unfold bits encodeJSRRF
  change BitVec.extractLsb' (n := 4 + 1 + 2 + 3 + 6) 6 3 _ = _
  simp (disch := decide) [-Nat.reduceAdd, BitVec.extractLsb'_append_eq_of_le,
    BitVec.extractLsb'_append_eq_of_add_le]

/-! Format TRAPF. -/

@[simp] theorem bits_encodeTRAPF_12 (op : Opcode) (v : BitVec 8) :
    bits (encodeTRAPF op v) 12 4 = op.field := by
  unfold bits encodeTRAPF
  change BitVec.extractLsb' (n := 4 + 4 + 8) 12 4 _ = _
  simp (disch := decide) [-Nat.reduceAdd, BitVec.extractLsb'_append_eq_of_le]

@[simp] theorem bits_encodeTRAPF_0 (op : Opcode) (v : BitVec 8) :
    bits (encodeTRAPF op v) 0 8 = v := by
  unfold bits encodeTRAPF
  change BitVec.extractLsb' (n := 4 + 4 + 8) 0 8 _ = _
  simp (disch := decide) [-Nat.reduceAdd, BitVec.extractLsb'_append_eq_of_add_le]

/-! Format NONE. -/

@[simp] theorem bits_encodeNONE_12 (op : Opcode) :
    bits (encodeNONE op) 12 4 = op.field := by
  unfold bits encodeNONE
  change BitVec.extractLsb' (n := 4 + 12) 12 4 _ = _
  simp (disch := decide) [-Nat.reduceAdd, BitVec.extractLsb'_append_eq_of_le]

/-! Each bit of each format. -/

theorem encodeOPR_getLsbD (op : Opcode) (dr sr1 sr2 : Reg) (k : Nat) :
    (encodeOPR op dr sr1 sr2).getLsbD k =
      if k < 3 then sr2.field.getLsbD k else
      if k < 5 then (0#2).getLsbD (k - 3) else
      if k < 6 then (0#1).getLsbD (k - 5) else
      if k < 9 then sr1.field.getLsbD (k - 6) else
      if k < 12 then dr.field.getLsbD (k - 9) else
      op.field.getLsbD (k - 12) := by
  change BitVec.getLsbD (w := 4 + 3 + 3 + 1 + 2 + 3) (op.field ++ dr.field ++ sr1.field ++ 0#1 ++ 0#2 ++ sr2.field) k = _
  simp only [BitVec.getLsbD_append]
  repeat' split
  all_goals first | rfl | omega

theorem encodeOPI_getLsbD (op : Opcode) (dr sr1 : Reg) (imm5 : BitVec 5) (k : Nat) :
    (encodeOPI op dr sr1 imm5).getLsbD k =
      if k < 5 then imm5.getLsbD k else
      if k < 6 then (1#1).getLsbD (k - 5) else
      if k < 9 then sr1.field.getLsbD (k - 6) else
      if k < 12 then dr.field.getLsbD (k - 9) else
      op.field.getLsbD (k - 12) := by
  change BitVec.getLsbD (w := 4 + 3 + 3 + 1 + 5) (op.field ++ dr.field ++ sr1.field ++ 1#1 ++ imm5) k = _
  simp only [BitVec.getLsbD_append]
  repeat' split
  all_goals first | rfl | omega

theorem encodeNOT_getLsbD (op : Opcode) (dr sr1 : Reg) (k : Nat) :
    (encodeNOT op dr sr1).getLsbD k =
      if k < 6 then (0b111111#6).getLsbD k else
      if k < 9 then sr1.field.getLsbD (k - 6) else
      if k < 12 then dr.field.getLsbD (k - 9) else
      op.field.getLsbD (k - 12) := by
  change BitVec.getLsbD (w := 4 + 3 + 3 + 6) (op.field ++ dr.field ++ sr1.field ++ 0b111111#6) k = _
  simp only [BitVec.getLsbD_append]
  repeat' split
  all_goals first | rfl | omega

theorem encodePCR_getLsbD (op : Opcode) (r : Reg) (off : BitVec 9) (k : Nat) :
    (encodePCR op r off).getLsbD k =
      if k < 9 then off.getLsbD k else
      if k < 12 then r.field.getLsbD (k - 9) else
      op.field.getLsbD (k - 12) := by
  change BitVec.getLsbD (w := 4 + 3 + 9) (op.field ++ r.field ++ off) k = _
  simp only [BitVec.getLsbD_append]
  repeat' split
  all_goals first | rfl | omega

theorem encodeBOF_getLsbD (op : Opcode) (r baseR : Reg) (off : BitVec 6) (k : Nat) :
    (encodeBOF op r baseR off).getLsbD k =
      if k < 6 then off.getLsbD k else
      if k < 9 then baseR.field.getLsbD (k - 6) else
      if k < 12 then r.field.getLsbD (k - 9) else
      op.field.getLsbD (k - 12) := by
  change BitVec.getLsbD (w := 4 + 3 + 3 + 6) (op.field ++ r.field ++ baseR.field ++ off) k = _
  simp only [BitVec.getLsbD_append]
  repeat' split
  all_goals first | rfl | omega

theorem encodeBRF_getLsbD (op : Opcode) (nzp : BitVec 3) (off : BitVec 9) (k : Nat) :
    (encodeBRF op nzp off).getLsbD k =
      if k < 9 then off.getLsbD k else
      if k < 12 then nzp.getLsbD (k - 9) else
      op.field.getLsbD (k - 12) := by
  change BitVec.getLsbD (w := 4 + 3 + 9) (op.field ++ nzp ++ off) k = _
  simp only [BitVec.getLsbD_append]
  repeat' split
  all_goals first | rfl | omega

theorem encodeJMPF_getLsbD (op : Opcode) (baseR : Reg) (k : Nat) :
    (encodeJMPF op baseR).getLsbD k =
      if k < 6 then (0#6).getLsbD k else
      if k < 9 then baseR.field.getLsbD (k - 6) else
      if k < 12 then (0#3).getLsbD (k - 9) else
      op.field.getLsbD (k - 12) := by
  change BitVec.getLsbD (w := 4 + 3 + 3 + 6) (op.field ++ 0#3 ++ baseR.field ++ 0#6) k = _
  simp only [BitVec.getLsbD_append]
  repeat' split
  all_goals first | rfl | omega

theorem encodeJSRF_getLsbD (op : Opcode) (off : BitVec 11) (k : Nat) :
    (encodeJSRF op off).getLsbD k =
      if k < 11 then off.getLsbD k else
      if k < 12 then (1#1).getLsbD (k - 11) else
      op.field.getLsbD (k - 12) := by
  change BitVec.getLsbD (w := 4 + 1 + 11) (op.field ++ 1#1 ++ off) k = _
  simp only [BitVec.getLsbD_append]
  repeat' split
  all_goals first | rfl | omega

theorem encodeJSRRF_getLsbD (op : Opcode) (baseR : Reg) (k : Nat) :
    (encodeJSRRF op baseR).getLsbD k =
      if k < 6 then (0#6).getLsbD k else
      if k < 9 then baseR.field.getLsbD (k - 6) else
      if k < 11 then (0#2).getLsbD (k - 9) else
      if k < 12 then (0#1).getLsbD (k - 11) else
      op.field.getLsbD (k - 12) := by
  change BitVec.getLsbD (w := 4 + 1 + 2 + 3 + 6) (op.field ++ 0#1 ++ 0#2 ++ baseR.field ++ 0#6) k = _
  simp only [BitVec.getLsbD_append]
  repeat' split
  all_goals first | rfl | omega

theorem encodeTRAPF_getLsbD (op : Opcode) (v : BitVec 8) (k : Nat) :
    (encodeTRAPF op v).getLsbD k =
      if k < 8 then v.getLsbD k else
      if k < 12 then (0#4).getLsbD (k - 8) else
      op.field.getLsbD (k - 12) := by
  change BitVec.getLsbD (w := 4 + 4 + 8) (op.field ++ 0#4 ++ v) k = _
  simp only [BitVec.getLsbD_append]
  repeat' split
  all_goals first | rfl | omega

theorem encodeNONE_getLsbD (op : Opcode) (k : Nat) :
    (encodeNONE op).getLsbD k =
      if k < 12 then (0#12).getLsbD k else
      op.field.getLsbD (k - 12) := by
  change BitVec.getLsbD (w := 4 + 12) (op.field ++ 0#12) k = _
  simp only [BitVec.getLsbD_append]

/-! What a word's bits determine of its fields. -/

theorem bits_and (I m : Word) (lo n : Nat) : bits (I &&& m) lo n = bits I lo n &&& bits m lo n := by
  unfold bits
  ext k hk
  simp

/-- Two words that agree under a mask have the same value in every field the mask covers. -/
theorem bits_of_mask {I J m : Word} (h : I &&& m = J &&& m) {lo n : Nat} (hm : bits m lo n = BitVec.allOnes n) :
    bits J lo n = bits I lo n := by
  have := congrArg (fun x => bits x lo n) h
  simpa [bits_and, hm] using this.symm

/-- A one-bit field is that bit. -/
theorem bits_one (I : Word) (lo : Nat) : bits I lo 1 = BitVec.ofBool (I.getLsbD lo) := by
  unfold bits
  ext k hk
  have : k = 0 := by omega
  subst this
  simp

theorem field_opcodeOf (I : Word) : (opcodeOf I).field = bits I 12 4 := Opcode.field_ofField _

/-! The TRAP rows. -/

/-- A known vector is one of the six, and selects its routine's row. -/
theorem trapRow_known (v : BitVec 8) (h : 0x20#8 ≤ v ∧ v ≤ 0x25#8) :
    v = 0x20#8 ∧ trapRow v = .trapGetc ∨ v = 0x21#8 ∧ trapRow v = .trapOut ∨
    v = 0x22#8 ∧ trapRow v = .trapPuts ∨ v = 0x23#8 ∧ trapRow v = .trapIn ∨
    v = 0x24#8 ∧ trapRow v = .trapPutsp ∨ v = 0x25#8 ∧ trapRow v = .trapHalt := by
  revert v; decide

/-- Any other vector is TRAP_other's. -/
theorem trapRow_unknown (v : BitVec 8) (h : ¬(0x20#8 ≤ v ∧ v ≤ 0x25#8)) : trapRow v = .trapOther v := by
  revert v; decide

/-- The dispatcher knows the six vectors 0x20..0x25 and no other (R170). -/
theorem ofVector_eq_none_iff (v : BitVec 8) :
    TrapRoutine.ofVector v = none ↔ ¬(0x20#8 ≤ v ∧ v ≤ 0x25#8) := by
  revert v; decide

/-- All TRAP rows are words of one format. -/
theorem encode_trapRow (v : BitVec 8) : encode (trapRow v) = encodeTRAPF .trap v := by
  by_cases h : 0x20#8 ≤ v ∧ v ≤ 0x25#8
  · rcases trapRow_known v h with h | h | h | h | h | h <;> rw [h.2, h.1] <;> rfl
  · rw [trapRow_unknown v h]
    rfl

theorem trapRow_wf (v : BitVec 8) : (trapRow v).wf = true := by
  by_cases h : 0x20#8 ≤ v ∧ v ≤ 0x25#8
  · rcases trapRow_known v h with h | h | h | h | h | h <;> rw [h.2] <;> rfl
  · rw [trapRow_unknown v h]
    simp only [Instr.wf, Instr.illFormed, if_neg h, Option.isNone_none]

/-- The canonical instruction is well formed. -/
theorem Instr.canonical_wf (i : Instr) : i.canonical.wf = true := by
  cases i <;> first | rfl | exact trapRow_wf _

/-- A well-formed instruction is its own canonical one. -/
theorem Instr.canonical_of_wf (i : Instr) (h : i.wf = true) : i.canonical = i := by
  cases i with
  | trapOther v =>
    refine trapRow_unknown v (fun hv => ?_)
    simp [Instr.wf, Instr.illFormed, hv] at h
  | trap v => exact absurd h (by simp [Instr.wf, Instr.illFormed])
  | _ => rfl

/-- The decoder answers well-formed instructions only. -/
theorem decode_wf (I : Word) : (decode I).wf = true := Instr.canonical_wf _

end Sys2Proof
end

