-- ==== Sys2Proof/Laws/Memory.lean ====
section
/-! SUPPORT. The laws of registers and of memory: read after write, every other place left alone, and the canonical
form kept. -/

namespace Sys2Proof.Machine

theorem RegFile.get_set (f : RegFile) (r q : Reg) (v : Word) :
    (f.set r v).get q = if q = r then v else f.get q := by
  cases r <;> cases q <;> rfl

@[simp] theorem RegFile.get_set_same (f : RegFile) (r : Reg) (v : Word) : (f.set r v).get r = v := by
  simp [RegFile.get_set]

theorem RegFile.get_set_of_ne (f : RegFile) {r q : Reg} (h : q ≠ r) (v : Word) :
    (f.set r v).get q = f.get q := by
  simp [RegFile.get_set, h]

@[simp] theorem RegFile.get_zero (r : Reg) : RegFile.zero.get r = 0#16 := by cases r <;> rfl

/-! Bytes under keys. -/

theorem byteAt_filter_same (cells : List Host.Cell) (k : Nat) :
    byteAt (cells.filter (fun c => c.1 != k)) k = unlistedByte := by
  induction cells with
  | nil => rfl
  | cons c rest ih =>
    by_cases h : c.1 = k <;> simp [byteAt, h, ih]

theorem byteAt_filter_of_ne (cells : List Host.Cell) {k j : Nat} (h : j ≠ k) :
    byteAt (cells.filter (fun c => c.1 != k)) j = byteAt cells j := by
  induction cells with
  | nil => rfl
  | cons c rest ih =>
    by_cases hk : c.1 = k
    · have hj : c.1 ≠ j := fun e => h (e.symm.trans hk)
      simp [byteAt, hk, ih, show k ≠ j from fun e => h e.symm]
    · by_cases hj : c.1 = j
      · simp [byteAt, hj, h]
      · simp [byteAt, hk, hj, ih]

theorem byteAt_insertCell_of_ne (cells : List Host.Cell) {k j : Nat} (h : j ≠ k) (b : Byte) :
    byteAt (insertCell k b cells) j = byteAt cells j := by
  have hk : k ≠ j := fun e => h e.symm
  induction cells with
  | nil => simp [insertCell, byteAt, hk]
  | cons c rest ih =>
    unfold insertCell
    split
    · simp [byteAt, hk]
    · simp [byteAt, ih]

theorem byteAt_insertCell_same (cells : List Host.Cell) (k : Nat) (b : Byte)
    (h : ∀ c ∈ cells, c.1 ≠ k) : byteAt (insertCell k b cells) k = b := by
  induction cells with
  | nil => simp [insertCell, byteAt]
  | cons c rest ih =>
    have hc : c.1 ≠ k := h c (by simp)
    unfold insertCell
    split
    · simp [byteAt]
    · simp [byteAt, hc, ih (fun d hd => h d (by simp [hd]))]

/-- Reading a byte after setting one. -/
theorem byteAt_setByte (cells : List Host.Cell) (k j : Nat) (b : Byte) :
    byteAt (setByte k b cells) j = if j = k then b else byteAt cells j := by
  unfold setByte
  by_cases hb : b = unlistedByte
  · by_cases hj : j = k
    · subst hj; simp [hb, byteAt_filter_same]
    · simp [hb, hj, byteAt_filter_of_ne cells hj]
  · by_cases hj : j = k
    · subst hj
      simp only [hb, if_false, if_true]
      exact byteAt_insertCell_same _ _ _ (fun c hc => by simpa using (List.mem_filter.mp hc).2)
    · simp [hb, hj, byteAt_insertCell_of_ne _ hj, byteAt_filter_of_ne cells hj]

/-! Words. -/

theorem append_extract_bytes (v : Word) :
    ((v.extractLsb' 8 8 ++ v.extractLsb' 0 8 : BitVec (8 + 8)) : Word) = v := by
  ext i hi
  simp only [BitVec.getElem_append, BitVec.getElem_extractLsb']
  split
  · simp [BitVec.getLsbD_eq_getElem hi]
  · have : 8 + (i - 8) = i := by omega
    simp [this, BitVec.getLsbD_eq_getElem hi]

/-- Read after write (20_memory.md R46, R53): the address written reads as the value, every other as before. -/
theorem Memory.read_write (m : Memory) (a b v : Word) :
    (m.write a v).read b = if b = a then v else m.read b := by
  unfold Memory.read Memory.write
  by_cases h : b = a
  · subst h
    simp only [byteAt_setByte, if_true]
    rw [if_neg (by omega)]
    exact append_extract_bytes v
  · have hn : b.toNat ≠ a.toNat := fun e => h (BitVec.eq_of_toNat_eq e)
    simp only [byteAt_setByte]
    rw [if_neg (by omega), if_neg (by omega), if_neg (by omega), if_neg (by omega), if_neg h]

@[simp] theorem Memory.read_write_same (m : Memory) (a v : Word) : (m.write a v).read a = v := by
  simp [Memory.read_write]

theorem Memory.read_write_of_ne (m : Memory) {a b : Word} (h : b ≠ a) (v : Word) :
    (m.write a v).read b = m.read b := by
  simp [Memory.read_write, h]

@[simp] theorem Memory.read_zero (a : Word) : Memory.zero.read a = 0#16 := by
  simp [Memory.read, Memory.zero, byteAt, unlistedByte]

/-! The canonical form. -/

theorem cellsWf_mono {lo hi : Nat} (h : lo ≤ hi) (cells : List Host.Cell) (hw : cellsWf hi cells = true) :
    cellsWf lo cells = true := by
  cases cells with
  | nil => rfl
  | cons c rest =>
    simp only [cellsWf, Bool.and_eq_true, decide_eq_true_eq] at hw ⊢
    exact ⟨⟨⟨by omega, hw.1.1.2⟩, hw.1.2⟩, hw.2⟩

theorem cellsWf_filter (lo : Nat) (cells : List Host.Cell) (p : Host.Cell → Bool)
    (hw : cellsWf lo cells = true) : cellsWf lo (cells.filter p) = true := by
  induction cells generalizing lo with
  | nil => rfl
  | cons c rest ih =>
    simp only [cellsWf, Bool.and_eq_true, decide_eq_true_eq] at hw
    have hr := ih (c.1 + 1) hw.2
    rw [List.filter_cons]
    split
    · simp only [cellsWf, Bool.and_eq_true, decide_eq_true_eq]
      exact ⟨hw.1, hr⟩
    · exact cellsWf_mono (by omega) _ hr

theorem cellsWf_insertCell (lo k : Nat) (b : Byte) (cells : List Host.Cell) (hlo : lo ≤ k)
    (hk : k < numKeys) (hb : b ≠ unlistedByte) (hne : ∀ c ∈ cells, c.1 ≠ k)
    (hw : cellsWf lo cells = true) : cellsWf lo (insertCell k b cells) = true := by
  induction cells generalizing lo with
  | nil => simp [insertCell, cellsWf, hlo, hk, hb]
  | cons c rest ih =>
    have hc : c.1 ≠ k := hne c (by simp)
    simp only [cellsWf, Bool.and_eq_true, decide_eq_true_eq] at hw
    unfold insertCell
    split
    · rename_i hlt
      simp only [cellsWf, Bool.and_eq_true, decide_eq_true_eq, bne_iff_ne]
      exact ⟨⟨⟨hlo, hk⟩, hb⟩, ⟨⟨by omega, hw.1.1.2⟩, by simpa using hw.1.2⟩, hw.2⟩
    · simp only [cellsWf, Bool.and_eq_true, decide_eq_true_eq]
      exact ⟨hw.1, ih (c.1 + 1) (by omega) (fun d hd => hne d (by simp [hd])) hw.2⟩

theorem cellsWf_setByte (k : Nat) (b : Byte) (cells : List Host.Cell) (hk : k < numKeys)
    (hw : cellsWf 0 cells = true) : cellsWf 0 (setByte k b cells) = true := by
  unfold setByte
  split
  · exact cellsWf_filter 0 cells _ hw
  · rename_i hb
    exact cellsWf_insertCell 0 k b _ (Nat.zero_le k) hk hb
      (fun c hc => by simpa using (List.mem_filter.mp hc).2) (cellsWf_filter 0 cells _ hw)

/-- The one memory operation keeps the canonical form. -/
theorem Memory.wf_write (m : Memory) (a v : Word) (hw : m.wf = true) : (m.write a v).wf = true := by
  have ha := a.isLt
  unfold Memory.wf Memory.write
  exact cellsWf_setByte _ _ _ (by unfold numKeys; omega) (cellsWf_setByte _ _ _ (by unfold numKeys; omega) hw)

@[simp] theorem Memory.wf_zero : Memory.zero.wf = true := rfl

/-- A canonical list has nothing under a key below its bound. -/
theorem byteAt_of_lt {lo k : Nat} (cells : List Host.Cell) (hw : cellsWf lo cells = true) (hk : k < lo) :
    byteAt cells k = unlistedByte := by
  induction cells generalizing lo with
  | nil => rfl
  | cons c rest ih =>
    simp only [cellsWf, Bool.and_eq_true, decide_eq_true_eq] at hw
    have hc : c.1 ≠ k := by omega
    simp only [byteAt, hc, if_false]
    exact ih hw.2 (by omega)

/-- A canonical list has nothing under a key of no word. -/
theorem byteAt_of_ge {lo k : Nat} (cells : List Host.Cell) (hw : cellsWf lo cells = true) (hk : numKeys ≤ k) :
    byteAt cells k = unlistedByte := by
  induction cells generalizing lo with
  | nil => rfl
  | cons c rest ih =>
    simp only [cellsWf, Bool.and_eq_true, decide_eq_true_eq] at hw
    have hc : c.1 ≠ k := by omega
    simp only [byteAt, hc, if_false]
    exact ih hw.2

/-- Two canonical lists with the same byte under every key are the same list. -/
theorem cells_ext (lo : Nat) (xs ys : List Host.Cell) (hx : cellsWf lo xs = true) (hy : cellsWf lo ys = true)
    (h : ∀ k, byteAt xs k = byteAt ys k) : xs = ys := by
  induction xs generalizing lo ys with
  | nil =>
    cases ys with
    | nil => rfl
    | cons d rest =>
      simp only [cellsWf, Bool.and_eq_true, decide_eq_true_eq, bne_iff_ne] at hy
      exact absurd (by simpa [byteAt] using (h d.1).symm) hy.1.2
  | cons c xs ih =>
    simp only [cellsWf, Bool.and_eq_true, decide_eq_true_eq, bne_iff_ne] at hx
    cases ys with
    | nil => exact absurd (by simpa [byteAt] using h c.1) hx.1.2
    | cons d ys =>
      simp only [cellsWf, Bool.and_eq_true, decide_eq_true_eq, bne_iff_ne] at hy
      have hkey : c.1 = d.1 := by
        rcases Nat.lt_trichotomy c.1 d.1 with hlt | heq | hgt
        · have hd : byteAt ys c.1 = unlistedByte := byteAt_of_lt ys hy.2 (by omega)
          have := h c.1
          simp only [byteAt, if_true, show d.1 ≠ c.1 by omega, if_false, hd] at this
          exact absurd this hx.1.2
        · exact heq
        · have hc : byteAt xs d.1 = unlistedByte := byteAt_of_lt xs hx.2 (by omega)
          have := h d.1
          simp only [byteAt, if_true, show c.1 ≠ d.1 by omega, if_false, hc] at this
          exact absurd this.symm hy.1.2
      have hval : c.2 = d.2 := by simpa [byteAt, hkey] using h c.1
      have hcd : c = d := Prod.ext hkey hval
      subst hcd
      refine congrArg (c :: ·) (ih (c.1 + 1) ys hx.2 hy.2 (fun k => ?_))
      by_cases hk : c.1 = k
      · rw [byteAt_of_lt xs hx.2 (by omega), byteAt_of_lt ys hy.2 (by omega)]
      · simpa [byteAt, hk] using h k

theorem Memory.byteAt_low (m : Memory) (a : Word) : byteAt m.cells (2 * a.toNat) = (m.read a).extractLsb' 0 8 := by
  exact BitVec.extractLsb'_append_eq_right.symm

theorem Memory.byteAt_high (m : Memory) (a : Word) :
    byteAt m.cells (2 * a.toNat + 1) = (m.read a).extractLsb' 8 8 := by
  exact BitVec.extractLsb'_append_eq_left.symm

end Sys2Proof.Machine
end

