-- ==== Sys2Proof/Laws/State.lean ====
section
/-! SUPPORT. One lemma per field per update of the state: what each update writes, and that it leaves the other
fields alone. -/

namespace Sys2Proof.Machine

/-! writeReg -/

@[simp] theorem State.writeReg_cfg (s : State) (r : Reg) (v : Word) : (s.writeReg r v).cfg = s.cfg := rfl

@[simp] theorem State.writeReg_regs (s : State) (r : Reg) (v : Word) : (s.writeReg r v).regs = s.regs.set r v := rfl

@[simp] theorem State.writeReg_pc (s : State) (r : Reg) (v : Word) : (s.writeReg r v).pc = s.pc := rfl

@[simp] theorem State.writeReg_cond (s : State) (r : Reg) (v : Word) : (s.writeReg r v).cond = s.cond := rfl

@[simp] theorem State.writeReg_mem (s : State) (r : Reg) (v : Word) : (s.writeReg r v).mem = s.mem := rfl

@[simp] theorem State.writeReg_run (s : State) (r : Reg) (v : Word) : (s.writeReg r v).run = s.run := rfl

@[simp] theorem State.writeReg_waiting (s : State) (r : Reg) (v : Word) : (s.writeReg r v).waiting = s.waiting := rfl

@[simp] theorem State.writeReg_input (s : State) (r : Reg) (v : Word) : (s.writeReg r v).input = s.input := rfl

@[simp] theorem State.writeReg_consumed (s : State) (r : Reg) (v : Word) : (s.writeReg r v).consumed = s.consumed := rfl

@[simp] theorem State.writeReg_output (s : State) (r : Reg) (v : Word) : (s.writeReg r v).output = s.output := rfl

theorem State.writeReg_reg (s : State) (r : Reg) (v : Word) (q : Reg) :
    (s.writeReg r v).reg q = if q = r then v else s.reg q := RegFile.get_set _ _ _ _

@[simp] theorem State.writeReg_reg_same (s : State) (r : Reg) (v : Word) : (s.writeReg r v).reg r = v := RegFile.get_set_same _ _ _

theorem State.writeReg_reg_of_ne (s : State) (r : Reg) (v : Word) {q : Reg} (h : q ≠ r) : (s.writeReg r v).reg q = s.reg q :=
  RegFile.get_set_of_ne _ h _

/-! writePc -/

@[simp] theorem State.writePc_cfg (s : State) (v : Word) : (s.writePc v).cfg = s.cfg := rfl

@[simp] theorem State.writePc_regs (s : State) (v : Word) : (s.writePc v).regs = s.regs := rfl

@[simp] theorem State.writePc_pc (s : State) (v : Word) : (s.writePc v).pc = v := rfl

@[simp] theorem State.writePc_cond (s : State) (v : Word) : (s.writePc v).cond = s.cond := rfl

@[simp] theorem State.writePc_mem (s : State) (v : Word) : (s.writePc v).mem = s.mem := rfl

@[simp] theorem State.writePc_run (s : State) (v : Word) : (s.writePc v).run = s.run := rfl

@[simp] theorem State.writePc_waiting (s : State) (v : Word) : (s.writePc v).waiting = s.waiting := rfl

@[simp] theorem State.writePc_input (s : State) (v : Word) : (s.writePc v).input = s.input := rfl

@[simp] theorem State.writePc_consumed (s : State) (v : Word) : (s.writePc v).consumed = s.consumed := rfl

@[simp] theorem State.writePc_output (s : State) (v : Word) : (s.writePc v).output = s.output := rfl

@[simp] theorem State.writePc_reg (s : State) (v : Word) (q : Reg) : (s.writePc v).reg q = s.reg q := rfl

/-! memWrite -/

@[simp] theorem State.memWrite_cfg (s : State) (a v : Word) : (s.memWrite a v).cfg = s.cfg := rfl

@[simp] theorem State.memWrite_regs (s : State) (a v : Word) : (s.memWrite a v).regs = s.regs := rfl

@[simp] theorem State.memWrite_pc (s : State) (a v : Word) : (s.memWrite a v).pc = s.pc := rfl

@[simp] theorem State.memWrite_cond (s : State) (a v : Word) : (s.memWrite a v).cond = s.cond := rfl

@[simp] theorem State.memWrite_mem (s : State) (a v : Word) : (s.memWrite a v).mem = s.mem.write a v := rfl

@[simp] theorem State.memWrite_run (s : State) (a v : Word) : (s.memWrite a v).run = s.run := rfl

@[simp] theorem State.memWrite_waiting (s : State) (a v : Word) : (s.memWrite a v).waiting = s.waiting := rfl

@[simp] theorem State.memWrite_input (s : State) (a v : Word) : (s.memWrite a v).input = s.input := rfl

@[simp] theorem State.memWrite_consumed (s : State) (a v : Word) : (s.memWrite a v).consumed = s.consumed := rfl

@[simp] theorem State.memWrite_output (s : State) (a v : Word) : (s.memWrite a v).output = s.output := rfl

@[simp] theorem State.memWrite_reg (s : State) (a v : Word) (q : Reg) : (s.memWrite a v).reg q = s.reg q := rfl

/-! outBytes -/

@[simp] theorem State.outBytes_cfg (s : State) (bs : List Byte) : (s.outBytes bs).cfg = s.cfg := rfl

@[simp] theorem State.outBytes_regs (s : State) (bs : List Byte) : (s.outBytes bs).regs = s.regs := rfl

@[simp] theorem State.outBytes_pc (s : State) (bs : List Byte) : (s.outBytes bs).pc = s.pc := rfl

@[simp] theorem State.outBytes_cond (s : State) (bs : List Byte) : (s.outBytes bs).cond = s.cond := rfl

@[simp] theorem State.outBytes_mem (s : State) (bs : List Byte) : (s.outBytes bs).mem = s.mem := rfl

@[simp] theorem State.outBytes_run (s : State) (bs : List Byte) : (s.outBytes bs).run = s.run := rfl

@[simp] theorem State.outBytes_waiting (s : State) (bs : List Byte) : (s.outBytes bs).waiting = s.waiting := rfl

@[simp] theorem State.outBytes_input (s : State) (bs : List Byte) : (s.outBytes bs).input = s.input := rfl

@[simp] theorem State.outBytes_consumed (s : State) (bs : List Byte) : (s.outBytes bs).consumed = s.consumed := rfl

@[simp] theorem State.outBytes_output (s : State) (bs : List Byte) : (s.outBytes bs).output = s.output ++ bs := rfl

@[simp] theorem State.outBytes_reg (s : State) (bs : List Byte) (q : Reg) : (s.outBytes bs).reg q = s.reg q := rfl

/-! outByte -/

@[simp] theorem State.outByte_cfg (s : State) (b : Byte) : (s.outByte b).cfg = s.cfg := rfl

@[simp] theorem State.outByte_regs (s : State) (b : Byte) : (s.outByte b).regs = s.regs := rfl

@[simp] theorem State.outByte_pc (s : State) (b : Byte) : (s.outByte b).pc = s.pc := rfl

@[simp] theorem State.outByte_cond (s : State) (b : Byte) : (s.outByte b).cond = s.cond := rfl

@[simp] theorem State.outByte_mem (s : State) (b : Byte) : (s.outByte b).mem = s.mem := rfl

@[simp] theorem State.outByte_run (s : State) (b : Byte) : (s.outByte b).run = s.run := rfl

@[simp] theorem State.outByte_waiting (s : State) (b : Byte) : (s.outByte b).waiting = s.waiting := rfl

@[simp] theorem State.outByte_input (s : State) (b : Byte) : (s.outByte b).input = s.input := rfl

@[simp] theorem State.outByte_consumed (s : State) (b : Byte) : (s.outByte b).consumed = s.consumed := rfl

@[simp] theorem State.outByte_output (s : State) (b : Byte) : (s.outByte b).output = s.output ++ [b] := rfl

@[simp] theorem State.outByte_reg (s : State) (b : Byte) (q : Reg) : (s.outByte b).reg q = s.reg q := rfl

/-! supply -/

@[simp] theorem State.supply_cfg (s : State) (bs : List Byte) : (s.supply bs).cfg = s.cfg := rfl

@[simp] theorem State.supply_regs (s : State) (bs : List Byte) : (s.supply bs).regs = s.regs := rfl

@[simp] theorem State.supply_pc (s : State) (bs : List Byte) : (s.supply bs).pc = s.pc := rfl

@[simp] theorem State.supply_cond (s : State) (bs : List Byte) : (s.supply bs).cond = s.cond := rfl

@[simp] theorem State.supply_mem (s : State) (bs : List Byte) : (s.supply bs).mem = s.mem := rfl

@[simp] theorem State.supply_run (s : State) (bs : List Byte) : (s.supply bs).run = s.run := rfl

@[simp] theorem State.supply_waiting (s : State) (bs : List Byte) : (s.supply bs).waiting = s.waiting := rfl

@[simp] theorem State.supply_input (s : State) (bs : List Byte) : (s.supply bs).input = s.input ++ bs := rfl

@[simp] theorem State.supply_consumed (s : State) (bs : List Byte) : (s.supply bs).consumed = s.consumed := rfl

@[simp] theorem State.supply_output (s : State) (bs : List Byte) : (s.supply bs).output = s.output := rfl

@[simp] theorem State.supply_reg (s : State) (bs : List Byte) (q : Reg) : (s.supply bs).reg q = s.reg q := rfl

/-! block -/

@[simp] theorem State.block_cfg (s : State) (w : Wait) : (s.block w).cfg = s.cfg := rfl

@[simp] theorem State.block_regs (s : State) (w : Wait) : (s.block w).regs = s.regs := rfl

@[simp] theorem State.block_pc (s : State) (w : Wait) : (s.block w).pc = s.pc := rfl

@[simp] theorem State.block_cond (s : State) (w : Wait) : (s.block w).cond = s.cond := rfl

@[simp] theorem State.block_mem (s : State) (w : Wait) : (s.block w).mem = s.mem := rfl

@[simp] theorem State.block_run (s : State) (w : Wait) : (s.block w).run = s.run := rfl

@[simp] theorem State.block_waiting (s : State) (w : Wait) : (s.block w).waiting = some w := rfl

@[simp] theorem State.block_input (s : State) (w : Wait) : (s.block w).input = s.input := rfl

@[simp] theorem State.block_consumed (s : State) (w : Wait) : (s.block w).consumed = s.consumed := rfl

@[simp] theorem State.block_output (s : State) (w : Wait) : (s.block w).output = s.output := rfl

@[simp] theorem State.block_reg (s : State) (w : Wait) (q : Reg) : (s.block w).reg q = s.reg q := rfl

/-! unblock -/

@[simp] theorem State.unblock_cfg (s : State) : s.unblock.cfg = s.cfg := rfl

@[simp] theorem State.unblock_regs (s : State) : s.unblock.regs = s.regs := rfl

@[simp] theorem State.unblock_pc (s : State) : s.unblock.pc = s.pc := rfl

@[simp] theorem State.unblock_cond (s : State) : s.unblock.cond = s.cond := rfl

@[simp] theorem State.unblock_mem (s : State) : s.unblock.mem = s.mem := rfl

@[simp] theorem State.unblock_run (s : State) : s.unblock.run = s.run := rfl

@[simp] theorem State.unblock_waiting (s : State) : s.unblock.waiting = none := rfl

@[simp] theorem State.unblock_input (s : State) : s.unblock.input = s.input := rfl

@[simp] theorem State.unblock_consumed (s : State) : s.unblock.consumed = s.consumed := rfl

@[simp] theorem State.unblock_output (s : State) : s.unblock.output = s.output := rfl

@[simp] theorem State.unblock_reg (s : State) (q : Reg) : s.unblock.reg q = s.reg q := rfl

/-! raiseFatal -/

@[simp] theorem State.raiseFatal_cfg (s : State) (c : FatalCode) : (s.raiseFatal c).cfg = s.cfg := rfl

@[simp] theorem State.raiseFatal_regs (s : State) (c : FatalCode) : (s.raiseFatal c).regs = s.regs := rfl

@[simp] theorem State.raiseFatal_pc (s : State) (c : FatalCode) : (s.raiseFatal c).pc = s.pc := rfl

@[simp] theorem State.raiseFatal_cond (s : State) (c : FatalCode) : (s.raiseFatal c).cond = s.cond := rfl

@[simp] theorem State.raiseFatal_mem (s : State) (c : FatalCode) : (s.raiseFatal c).mem = s.mem := rfl

@[simp] theorem State.raiseFatal_run (s : State) (c : FatalCode) : (s.raiseFatal c).run = .fatal c := rfl

@[simp] theorem State.raiseFatal_waiting (s : State) (c : FatalCode) : (s.raiseFatal c).waiting = s.waiting := rfl

@[simp] theorem State.raiseFatal_input (s : State) (c : FatalCode) : (s.raiseFatal c).input = s.input := rfl

@[simp] theorem State.raiseFatal_consumed (s : State) (c : FatalCode) : (s.raiseFatal c).consumed = s.consumed := rfl

@[simp] theorem State.raiseFatal_output (s : State) (c : FatalCode) : (s.raiseFatal c).output = s.output := rfl

@[simp] theorem State.raiseFatal_reg (s : State) (c : FatalCode) (q : Reg) : (s.raiseFatal c).reg q = s.reg q := rfl

/-! halt -/

@[simp] theorem State.halt_cfg (s : State) : s.halt.cfg = s.cfg := rfl

@[simp] theorem State.halt_regs (s : State) : s.halt.regs = s.regs := rfl

@[simp] theorem State.halt_pc (s : State) : s.halt.pc = s.pc := rfl

@[simp] theorem State.halt_cond (s : State) : s.halt.cond = s.cond := rfl

@[simp] theorem State.halt_mem (s : State) : s.halt.mem = s.mem := rfl

@[simp] theorem State.halt_run (s : State) : s.halt.run = .halted := rfl

@[simp] theorem State.halt_waiting (s : State) : s.halt.waiting = s.waiting := rfl

@[simp] theorem State.halt_input (s : State) : s.halt.input = s.input := rfl

@[simp] theorem State.halt_consumed (s : State) : s.halt.consumed = s.consumed := rfl

@[simp] theorem State.halt_output (s : State) : s.halt.output = s.output := rfl

@[simp] theorem State.halt_reg (s : State) (q : Reg) : s.halt.reg q = s.reg q := rfl

/-! setcc -/

@[simp] theorem State.setcc_cfg (s : State) (v : Word) : (s.setcc v).cfg = s.cfg := rfl

@[simp] theorem State.setcc_regs (s : State) (v : Word) : (s.setcc v).regs = s.regs := rfl

@[simp] theorem State.setcc_pc (s : State) (v : Word) : (s.setcc v).pc = s.pc := rfl

@[simp] theorem State.setcc_cond (s : State) (v : Word) : (s.setcc v).cond = (flagOf v).bits := rfl

@[simp] theorem State.setcc_mem (s : State) (v : Word) : (s.setcc v).mem = s.mem := rfl

@[simp] theorem State.setcc_run (s : State) (v : Word) : (s.setcc v).run = s.run := rfl

@[simp] theorem State.setcc_waiting (s : State) (v : Word) : (s.setcc v).waiting = s.waiting := rfl

@[simp] theorem State.setcc_input (s : State) (v : Word) : (s.setcc v).input = s.input := rfl

@[simp] theorem State.setcc_consumed (s : State) (v : Word) : (s.setcc v).consumed = s.consumed := rfl

@[simp] theorem State.setcc_output (s : State) (v : Word) : (s.setcc v).output = s.output := rfl

@[simp] theorem State.setcc_reg (s : State) (v : Word) (q : Reg) : (s.setcc v).reg q = s.reg q := rfl

/-! writeResult -/

@[simp] theorem State.writeResult_cfg (s : State) (dr : Reg) (v : Word) : (s.writeResult dr v).cfg = s.cfg := rfl

@[simp] theorem State.writeResult_regs (s : State) (dr : Reg) (v : Word) : (s.writeResult dr v).regs = s.regs.set dr v := rfl

@[simp] theorem State.writeResult_pc (s : State) (dr : Reg) (v : Word) : (s.writeResult dr v).pc = s.pc := rfl

@[simp] theorem State.writeResult_cond (s : State) (dr : Reg) (v : Word) : (s.writeResult dr v).cond = (flagOf v).bits := rfl

@[simp] theorem State.writeResult_mem (s : State) (dr : Reg) (v : Word) : (s.writeResult dr v).mem = s.mem := rfl

@[simp] theorem State.writeResult_run (s : State) (dr : Reg) (v : Word) : (s.writeResult dr v).run = s.run := rfl

@[simp] theorem State.writeResult_waiting (s : State) (dr : Reg) (v : Word) : (s.writeResult dr v).waiting = s.waiting := rfl

@[simp] theorem State.writeResult_input (s : State) (dr : Reg) (v : Word) : (s.writeResult dr v).input = s.input := rfl

@[simp] theorem State.writeResult_consumed (s : State) (dr : Reg) (v : Word) : (s.writeResult dr v).consumed = s.consumed := rfl

@[simp] theorem State.writeResult_output (s : State) (dr : Reg) (v : Word) : (s.writeResult dr v).output = s.output := rfl

theorem State.writeResult_reg (s : State) (dr : Reg) (v : Word) (q : Reg) :
    (s.writeResult dr v).reg q = if q = dr then v else s.reg q := RegFile.get_set _ _ _ _

@[simp] theorem State.writeResult_reg_same (s : State) (dr : Reg) (v : Word) : (s.writeResult dr v).reg dr = v := RegFile.get_set_same _ _ _

theorem State.writeResult_reg_of_ne (s : State) (dr : Reg) (v : Word) {q : Reg} (h : q ≠ dr) : (s.writeResult dr v).reg q = s.reg q :=
  RegFile.get_set_of_ne _ h _

/-! link -/

@[simp] theorem State.link_cfg (s : State) : s.link.cfg = s.cfg := rfl

@[simp] theorem State.link_regs (s : State) : s.link.regs = s.regs.set .r7 s.pc := rfl

@[simp] theorem State.link_pc (s : State) : s.link.pc = s.pc := rfl

@[simp] theorem State.link_cond (s : State) : s.link.cond = s.cond := rfl

@[simp] theorem State.link_mem (s : State) : s.link.mem = s.mem := rfl

@[simp] theorem State.link_run (s : State) : s.link.run = s.run := rfl

@[simp] theorem State.link_waiting (s : State) : s.link.waiting = s.waiting := rfl

@[simp] theorem State.link_input (s : State) : s.link.input = s.input := rfl

@[simp] theorem State.link_consumed (s : State) : s.link.consumed = s.consumed := rfl

@[simp] theorem State.link_output (s : State) : s.link.output = s.output := rfl

theorem State.link_reg (s : State) (q : Reg) :
    s.link.reg q = if q = .r7 then s.pc else s.reg q := RegFile.get_set _ _ _ _

@[simp] theorem State.link_reg_same (s : State) : s.link.reg .r7 = s.pc :=
  RegFile.get_set_same s.regs .r7 s.pc

theorem State.link_reg_of_ne (s : State) {q : Reg} (h : q ≠ .r7) : s.link.reg q = s.reg q :=
  RegFile.get_set_of_ne _ h _

/-! placeWord -/

@[simp] theorem State.placeWord_cfg (s : State) (w : Word) : (s.placeWord w).cfg = s.cfg := rfl

@[simp] theorem State.placeWord_regs (s : State) (w : Word) : (s.placeWord w).regs = s.regs := rfl

@[simp] theorem State.placeWord_pc (s : State) (w : Word) : (s.placeWord w).pc = s.pc := rfl

@[simp] theorem State.placeWord_cond (s : State) (w : Word) : (s.placeWord w).cond = s.cond := rfl

@[simp] theorem State.placeWord_mem (s : State) (w : Word) : (s.placeWord w).mem = s.mem.write s.pc w := rfl

@[simp] theorem State.placeWord_run (s : State) (w : Word) : (s.placeWord w).run = .running := rfl

@[simp] theorem State.placeWord_waiting (s : State) (w : Word) : (s.placeWord w).waiting = none := rfl

@[simp] theorem State.placeWord_input (s : State) (w : Word) : (s.placeWord w).input = s.input := rfl

@[simp] theorem State.placeWord_consumed (s : State) (w : Word) : (s.placeWord w).consumed = s.consumed := rfl

@[simp] theorem State.placeWord_output (s : State) (w : Word) : (s.placeWord w).output = s.output := rfl

@[simp] theorem State.placeWord_reg (s : State) (w : Word) (q : Reg) : (s.placeWord w).reg q = s.reg q := rfl

/-! advanceInput -/

@[simp] theorem State.advanceInput_cfg (s : State) (rest : List Byte) : (s.advanceInput rest).cfg = s.cfg := rfl

@[simp] theorem State.advanceInput_regs (s : State) (rest : List Byte) : (s.advanceInput rest).regs = s.regs := rfl

@[simp] theorem State.advanceInput_pc (s : State) (rest : List Byte) : (s.advanceInput rest).pc = s.pc := rfl

@[simp] theorem State.advanceInput_cond (s : State) (rest : List Byte) : (s.advanceInput rest).cond = s.cond := rfl

@[simp] theorem State.advanceInput_mem (s : State) (rest : List Byte) : (s.advanceInput rest).mem = s.mem := rfl

@[simp] theorem State.advanceInput_run (s : State) (rest : List Byte) : (s.advanceInput rest).run = s.run := rfl

@[simp] theorem State.advanceInput_waiting (s : State) (rest : List Byte) : (s.advanceInput rest).waiting = s.waiting := rfl

@[simp] theorem State.advanceInput_input (s : State) (rest : List Byte) : (s.advanceInput rest).input = rest := rfl

@[simp] theorem State.advanceInput_consumed (s : State) (rest : List Byte) : (s.advanceInput rest).consumed = s.consumed + 1 := rfl

@[simp] theorem State.advanceInput_output (s : State) (rest : List Byte) : (s.advanceInput rest).output = s.output := rfl

@[simp] theorem State.advanceInput_reg (s : State) (rest : List Byte) (q : Reg) :
    (s.advanceInput rest).reg q = s.reg q := rfl

/-! refresh -/

@[simp] theorem State.refresh_cfg (s : State) (b : Byte) : (s.refresh b).cfg = s.cfg := by
  unfold State.refresh; split <;> rfl

@[simp] theorem State.refresh_regs (s : State) (b : Byte) : (s.refresh b).regs = s.regs := by
  unfold State.refresh; split <;> rfl

@[simp] theorem State.refresh_pc (s : State) (b : Byte) : (s.refresh b).pc = s.pc := by
  unfold State.refresh; split <;> rfl

@[simp] theorem State.refresh_cond (s : State) (b : Byte) : (s.refresh b).cond = s.cond := by
  unfold State.refresh; split <;> rfl

@[simp] theorem State.refresh_run (s : State) (b : Byte) : (s.refresh b).run = s.run := by
  unfold State.refresh; split <;> rfl

@[simp] theorem State.refresh_waiting (s : State) (b : Byte) : (s.refresh b).waiting = s.waiting := by
  unfold State.refresh; split <;> rfl

@[simp] theorem State.refresh_input (s : State) (b : Byte) : (s.refresh b).input = s.input := by
  unfold State.refresh; split <;> rfl

@[simp] theorem State.refresh_consumed (s : State) (b : Byte) : (s.refresh b).consumed = s.consumed := by
  unfold State.refresh; split <;> rfl

@[simp] theorem State.refresh_output (s : State) (b : Byte) : (s.refresh b).output = s.output := by
  unfold State.refresh; split <;> rfl

@[simp] theorem State.refresh_reg (s : State) (b : Byte) (q : Reg) : (s.refresh b).reg q = s.reg q := by
  unfold State.refresh; split <;> rfl

/-! trapEnter -/

@[simp] theorem State.trapEnter_cfg (s : State) : s.trapEnter.cfg = s.cfg := by
  unfold State.trapEnter; split <;> rfl

@[simp] theorem State.trapEnter_pc (s : State) : s.trapEnter.pc = s.pc := by
  unfold State.trapEnter; split <;> rfl

@[simp] theorem State.trapEnter_cond (s : State) : s.trapEnter.cond = s.cond := by
  unfold State.trapEnter; split <;> rfl

@[simp] theorem State.trapEnter_mem (s : State) : s.trapEnter.mem = s.mem := by
  unfold State.trapEnter; split <;> rfl

@[simp] theorem State.trapEnter_run (s : State) : s.trapEnter.run = s.run := by
  unfold State.trapEnter; split <;> rfl

@[simp] theorem State.trapEnter_waiting (s : State) : s.trapEnter.waiting = s.waiting := by
  unfold State.trapEnter; split <;> rfl

@[simp] theorem State.trapEnter_input (s : State) : s.trapEnter.input = s.input := by
  unfold State.trapEnter; split <;> rfl

@[simp] theorem State.trapEnter_consumed (s : State) : s.trapEnter.consumed = s.consumed := by
  unfold State.trapEnter; split <;> rfl

@[simp] theorem State.trapEnter_output (s : State) : s.trapEnter.output = s.output := by
  unfold State.trapEnter; split <;> rfl

theorem State.trapEnter_reg (s : State) (q : Reg) :
    s.trapEnter.reg q = if s.cfg.trapWritesR7 = true ∧ q = .r7 then s.pc else s.reg q := by
  unfold State.trapEnter
  by_cases h : s.cfg.trapWritesR7 = true <;> simp [h, State.writeReg_reg]

/-- TRAP's first line never touches R0, which the routines read and write. -/
@[simp] theorem State.trapEnter_reg_r0 (s : State) : s.trapEnter.reg .r0 = s.reg .r0 := by
  simp [State.trapEnter_reg]

/-- The branch test reads COND alone. -/
@[simp] theorem State.branchTaken_writePc (s : State) (v : Word) (nzp : BitVec 3) :
    (s.writePc v).branchTaken nzp = s.branchTaken nzp := rfl

/-- The state of a cycle that goes on is the state it waited in. -/
@[simp] theorem State.block_unblock (s : State) (w v : Wait) : ((s.block w).unblock).block v = s.block v := rfl

theorem State.unblock_of_none (s : State) (h : s.waiting = none) : s.unblock = s := by
  cases s; cases h; rfl

theorem State.block_of_waiting (s : State) (w : Wait) (h : s.waiting = some w) : s.unblock.block w = s := by
  cases s; cases h; rfl

/-- Input that the host supplies stands behind what is there. -/
@[simp] theorem State.supply_nil (s : State) : s.supply [] = s := by
  cases s; simp [State.supply]

end Sys2Proof.Machine
end

