-- ==== Sys2Proof/Laws/Ops.lean ====
section
/-! SUPPORT. What each shared operation can do, said once: the input request, the refresh, the read path, and the
tails of a cycle that may wait. -/

namespace Sys2Proof.Machine

/-! The input request. -/

theorem inByte_none {s : State} : s.inByte = none ↔ s.input = [] := by
  unfold State.inByte
  split <;> simp [*]

/-- All a granted request does: it takes the first byte and counts it. -/
theorem inByte_some {s s1 : State} {b : Byte} (h : s.inByte = some (b, s1)) :
    ∃ rest, s.input = b :: rest ∧ s1 = s.advanceInput rest := by
  unfold State.inByte at h
  split at h
  · cases h
  · rename_i c rest hi
    simp only [Option.some.injEq, Prod.mk.injEq] at h
    exact ⟨rest, by rw [hi, h.1], h.2.symm⟩

theorem inByte_cons {s : State} {b : Byte} {rest : List Byte} (h : s.input = b :: rest) :
    s.inByte = some (b, s.advanceInput rest) := by
  unfold State.inByte
  rw [h]

/-! The refresh (R43). -/

theorem refresh_zero (s : State) : s.refresh 0#8 = s.memWrite s.cfg.kbsrAddr 0x0000#16 := by
  simp [State.refresh]

theorem refresh_of_ne (s : State) {b : Byte} (h : b ≠ 0#8) :
    s.refresh b = (s.memWrite s.cfg.kbsrAddr 0x8000#16).memWrite s.cfg.kbdrAddr (zext8 b) := by
  simp [State.refresh, h]

/-- A refresh writes no word but KBSR and KBDR. -/
theorem refresh_read_of_ne (s : State) (b : Byte) {a : Word} (h1 : a ≠ s.cfg.kbsrAddr)
    (h2 : a ≠ s.cfg.kbdrAddr) : (s.refresh b).mem.read a = s.mem.read a := by
  unfold State.refresh
  split <;> simp [Memory.read_write, h1, h2]

/-- The word of KBSR after a refresh, the two keyboard addresses being different (R42, R11). -/
theorem refresh_read_kbsr (s : State) (b : Byte) (h : s.cfg.wf = true) :
    (s.refresh b).mem.read s.cfg.kbsrAddr = if b = 0#8 then 0x0000#16 else 0x8000#16 := by
  have hne : s.cfg.kbsrAddr ≠ s.cfg.kbdrAddr := by simpa [Config.wf] using h
  by_cases hb : b = 0#8
  · simp [State.refresh, hb]
  · simp [State.refresh, hb, Memory.read_write, hne]

/-- The word of KBDR after a refresh (R42). -/
theorem refresh_read_kbdr (s : State) (b : Byte) (h : s.cfg.wf = true) :
    (s.refresh b).mem.read s.cfg.kbdrAddr =
      if b = 0#8 then s.mem.read s.cfg.kbdrAddr else zext8 b := by
  have hne : s.cfg.kbdrAddr ≠ s.cfg.kbsrAddr := fun e => by simp [Config.wf, e] at h
  by_cases hb : b = 0#8
  · simp [State.refresh, hb, Memory.read_write, hne]
  · simp [State.refresh, hb]

theorem refresh_wf (s : State) (b : Byte) (h : s.mem.wf = true) : (s.refresh b).mem.wf = true := by
  unfold State.refresh
  split
  · exact Memory.wf_write _ _ _ (Memory.wf_write _ _ _ h)
  · exact Memory.wf_write _ _ _ h

/-! The read path (R43). -/

/-- A read of any other address has no side effect. -/
theorem memRead_of_ne {s : State} {a : Word} (h : a ≠ s.cfg.kbsrAddr) : s.memRead a = some (s.mem.read a, s) := by
  simp [State.memRead, h]

/-- A read blocks only at `KBSR_ADDR` with no byte of input. -/
theorem memRead_none {s : State} {a : Word} : s.memRead a = none ↔ a = s.cfg.kbsrAddr ∧ s.input = [] := by
  unfold State.memRead
  by_cases ha : a = s.cfg.kbsrAddr
  · rw [if_pos ha]
    cases hi : s.inByte with
    | none => simp [ha, inByte_none.mp hi]
    | some p =>
      obtain ⟨rest, hr, -⟩ := inByte_some (b := p.1) (s1 := p.2) hi
      simp [hr]
  · simp [ha]

/-- All a read that completes does. -/
theorem memRead_some {s s1 : State} {a v : Word} (h : s.memRead a = some (v, s1)) :
    (a ≠ s.cfg.kbsrAddr ∧ v = s.mem.read a ∧ s1 = s) ∨
    (a = s.cfg.kbsrAddr ∧ ∃ b rest, s.input = b :: rest ∧
      s1 = (s.advanceInput rest).refresh b ∧ v = s1.mem.read a) := by
  unfold State.memRead at h
  by_cases ha : a = s.cfg.kbsrAddr
  · rw [if_pos ha] at h
    cases hi : s.inByte with
    | none => rw [hi] at h; cases h
    | some p =>
      obtain ⟨rest, hr, hs⟩ := inByte_some (b := p.1) (s1 := p.2) hi
      rw [hi] at h
      simp only [Option.some.injEq, Prod.mk.injEq] at h
      refine .inr ⟨ha, p.1, rest, hr, ?_, ?_⟩
      · rw [← h.2, hs]
      · rw [← h.1, ← h.2]
  · rw [if_neg ha] at h
    simp only [Option.some.injEq, Prod.mk.injEq] at h
    exact .inl ⟨ha, h.1.symm, h.2.symm⟩

theorem memRead_kbsr {s : State} {b : Byte} {rest : List Byte} (h : s.input = b :: rest) :
    s.memRead s.cfg.kbsrAddr =
      some (((s.advanceInput rest).refresh b).mem.read s.cfg.kbsrAddr,
        (s.advanceInput rest).refresh b) := by
  simp [State.memRead, inByte_cons h]

theorem memRead_isSome_of_canRead {s : State} {a : Word} (h : s.CanRead a) :
    ∃ v s1, s.memRead a = some (v, s1) := by
  cases hr : s.memRead a with
  | none =>
    obtain ⟨ha, hi⟩ := memRead_none.mp hr
    exact absurd hi (h ha)
  | some p => exact ⟨p.1, p.2, rfl⟩

/-- What no read changes: everything but the keyboard words and the input channel. -/
theorem memRead_frame {s s1 : State} {a v : Word} (h : s.memRead a = some (v, s1)) :
    s1.cfg = s.cfg ∧ s1.regs = s.regs ∧ s1.pc = s.pc ∧ s1.cond = s.cond ∧ s1.run = s.run ∧
    s1.waiting = s.waiting ∧ s1.output = s.output ∧
    (∀ c, c ≠ s.cfg.kbsrAddr → c ≠ s.cfg.kbdrAddr → s1.mem.read c = s.mem.read c) := by
  rcases memRead_some h with ⟨-, -, rfl⟩ | ⟨-, b, rest, -, rfl, -⟩
  · exact ⟨rfl, rfl, rfl, rfl, rfl, rfl, rfl, fun _ _ _ => rfl⟩
  · refine ⟨by simp, by simp, by simp, by simp, by simp, by simp, by simp, fun c h1 h2 => ?_⟩
    exact refresh_read_of_ne _ b h1 h2

theorem memRead_wf {s s1 : State} {a v : Word} (h : s.memRead a = some (v, s1)) (hw : s.mem.wf = true) :
    s1.mem.wf = true := by
  rcases memRead_some h with ⟨-, -, rfl⟩ | ⟨-, b, rest, -, rfl, -⟩
  · exact hw
  · exact refresh_wf _ _ hw

/-! Flags. -/

@[simp] theorem condLegal_flag (f : Flag) : condLegal f.bits = true := by cases f <;> rfl

/-- The three flags have three different bits. -/
theorem Flag.bits_inj {f g : Flag} (h : f.bits = g.bits) : f = g := by
  cases f <;> cases g <;> first | rfl | exact absurd h (by decide)

/-! Bytes and words. -/

@[simp] theorem zext8_toNat (b : Byte) : (zext8 b).toNat = b.toNat := by
  have := b.isLt
  simp [zext8]
  omega

@[simp] theorem lowByte_toNat (w : Word) : (lowByte w).toNat = w.toNat % 256 := by
  simp [lowByte, BitVec.extractLsb'_toNat]

/-! The termination code (R90). -/

@[simp] theorem RunState.terminationCode_running : RunState.running.terminationCode = none := rfl

@[simp] theorem RunState.terminationCode_halted : RunState.halted.terminationCode = some 0 := rfl

@[simp] theorem RunState.terminationCode_fatal (c : FatalCode) :
    (RunState.fatal c).terminationCode = some c.code := rfl

/-! Tails of a cycle. -/

theorem loadFrom_of_read {s s1 : State} {dr : Reg} {ea v : Word} (h : s.memRead ea = some (v, s1)) :
    loadFrom dr ea s = s1.writeResult dr v := by
  simp [loadFrom, h]

theorem loadFrom_of_block {s : State} {dr : Reg} {ea : Word} (h : s.memRead ea = none) :
    loadFrom dr ea s = s.block (.load dr ea) := by
  simp [loadFrom, h]

theorem loadIndirectFrom_of_read {s s1 : State} {dr : Reg} {ea p : Word} (h : s.memRead ea = some (p, s1)) :
    loadIndirectFrom dr ea s = loadFrom dr p s1 := by
  simp [loadIndirectFrom, h]

theorem loadIndirectFrom_of_block {s : State} {dr : Reg} {ea : Word} (h : s.memRead ea = none) :
    loadIndirectFrom dr ea s = s.block (.loadPointer dr ea) := by
  simp [loadIndirectFrom, h]

theorem storeIndirectFrom_of_read {s s1 : State} {sr : Reg} {ea p : Word} (h : s.memRead ea = some (p, s1)) :
    storeIndirectFrom sr ea s = s1.memWrite p (s1.reg sr) := by
  simp [storeIndirectFrom, h]

theorem storeIndirectFrom_of_block {s : State} {sr : Reg} {ea : Word} (h : s.memRead ea = none) :
    storeIndirectFrom sr ea s = s.block (.storePointer sr ea) := by
  simp [storeIndirectFrom, h]

theorem readCharacter_of_cons {s : State} {b : Byte} {rest : List Byte} (h : s.input = b :: rest) :
    readCharacter s = (s.advanceInput rest).writeReg .r0 (zext8 b) := by
  simp [readCharacter, inByte_cons h]

theorem readCharacter_of_nil {s : State} (h : s.input = []) : readCharacter s = s.block .character := by
  simp [readCharacter, inByte_none.mpr h]

/-! The loops of PUTS and PUTSP. -/

theorem wordsAfter_last : wordsAfter 0xFFFF#16 = 0 := rfl

theorem wordsAfter_succ {a : Word} (h : a ≠ 0xFFFF#16) : wordsAfter a = wordsAfter (a + 1#16) + 1 := by
  have hlt : a.toNat < 0xFFFF := by
    have := a.isLt
    have hne : a.toNat ≠ 0xFFFF := fun e => h (BitVec.eq_of_toNat_eq e)
    omega
  have : (a + 1#16).toNat = a.toNat + 1 := by
    rw [BitVec.toNat_add]
    simp only [BitVec.toNat_ofNat]
    omega
  unfold wordsAfter
  omega

/-- The loop of PUTS, one iteration at a time, as R173's pseudocode writes it. -/
theorem putsFrom_eq (a : Word) (s : State) :
    putsFrom a s =
      match s.memRead a with
      | none => s.block (.puts a)
      | some (w, s1) =>
        if w = 0x0000#16 then s1
        else if a = 0xFFFF#16 then s1.outByte (lowByte w)
        else putsFrom (a + 1#16) (s1.outByte (lowByte w)) := by
  unfold putsFrom
  by_cases ha : a = 0xFFFF#16
  · subst ha
    rw [wordsAfter_last]
    rcases h : s.memRead 0xFFFF#16 with _ | ⟨w, s1⟩ <;> simp [putsLoop, h]
  · rw [wordsAfter_succ ha]
    rcases h : s.memRead a with _ | ⟨w, s1⟩ <;> simp [putsLoop, h, ha]

/-- The loop of PUTSP, one iteration at a time, as R175's pseudocode writes it. -/
theorem putspFrom_eq (a : Word) (s : State) :
    putspFrom a s =
      match s.memRead a with
      | none => s.block (.putsp a)
      | some (w, s1) =>
        if w = 0x0000#16 then s1
        else if a = 0xFFFF#16 then s1.outBytes (packedBytes w)
        else putspFrom (a + 1#16) (s1.outBytes (packedBytes w)) := by
  unfold putspFrom
  by_cases ha : a = 0xFFFF#16
  · subst ha
    rw [wordsAfter_last]
    rcases h : s.memRead 0xFFFF#16 with _ | ⟨w, s1⟩ <;> simp [putspLoop, h]
  · rw [wordsAfter_succ ha]
    rcases h : s.memRead a with _ | ⟨w, s1⟩ <;> simp [putspLoop, h, ha]

end Sys2Proof.Machine
end

