-- ==== Sys2Proof/Laws/Exec.lean ====
section
/-! SUPPORT. What `exec`, `resume` and `step` can do, said once: an instruction is a chain of the named operations
that ends, at most, in a wait, a fatal stop or a halt. -/

namespace Sys2Proof.Machine

/-- Every instruction has a next state. -/
theorem exec_isNext (i : Instr) (s : State) : ∃ t, exec i s = .next t := by
  cases i with
  | trap v =>
    simp only [exec, execTrap]
    split <;> exact ⟨_, rfl⟩
  | _ => exact ⟨_, rfl⟩

/-- A property `P` that the operations inside an instruction keep. -/
structure Kept (P : State → Prop) : Prop where
  writeReg : ∀ s r v, P s → P (s.writeReg r v)
  setcc : ∀ s v, P s → P (s.setcc v)
  writePc : ∀ s v, P s → P (s.writePc v)
  memWrite : ∀ s a v, P s → P (s.memWrite a v)
  outBytes : ∀ s bs, P s → P (s.outBytes bs)
  advanceInput : ∀ s b rest, s.input = b :: rest → P s → P (s.advanceInput rest)

/-- What the end of an instruction makes of `P`: `Q` holds where the instruction simply ends, where it waits at an
input request, where it stops and where it halts. -/
structure Ends (P Q : State → Prop) : Prop where
  done : ∀ s, P s → Q s
  block : ∀ s w, P s → w.legal s = true → s.input = [] → Q (s.block w)
  fatal : ∀ s c, c ≠ .unknownOpcode → P s → Q (s.raiseFatal c)
  halt : ∀ s, P s → Q s.halt

theorem Kept.refresh {P : State → Prop} (k : Kept P) {s : State} (b : Byte) (h : P s) : P (s.refresh b) := by
  unfold State.refresh
  split
  · exact k.memWrite _ _ _ (k.memWrite _ _ _ h)
  · exact k.memWrite _ _ _ h

theorem Kept.memRead {P : State → Prop} (k : Kept P) {s s1 : State} {a v : Word}
    (hr : s.memRead a = some (v, s1)) (h : P s) : P s1 := by
  rcases memRead_some hr with ⟨-, -, rfl⟩ | ⟨-, b, rest, hi, rfl, -⟩
  · exact h
  · exact k.refresh b (k.advanceInput s b rest hi h)

theorem Kept.writeResult {P : State → Prop} (k : Kept P) {s : State} (dr : Reg) (v : Word) (h : P s) :
    P (s.writeResult dr v) :=
  k.setcc _ _ (k.writeReg _ _ _ h)

theorem Kept.trapEnter {P : State → Prop} (k : Kept P) {s : State} (h : P s) : P s.trapEnter := by
  unfold State.trapEnter
  split
  · exact k.writeReg _ _ _ h
  · exact h

variable {P Q : State → Prop}

theorem loadFrom_ends (k : Kept P) (e : Ends P Q) (dr : Reg) (ea : Word) (s : State) (h : P s) :
    Q (loadFrom dr ea s) := by
  cases hr : s.memRead ea with
  | none =>
    rw [loadFrom_of_block hr]
    exact e.block _ _ h (by simpa [Wait.legal] using (memRead_none.mp hr).1) (memRead_none.mp hr).2
  | some p =>
    rw [loadFrom_of_read (v := p.1) (s1 := p.2) hr]
    exact e.done _ (k.writeResult _ _ (k.memRead (v := p.1) hr h))

theorem loadIndirectFrom_ends (k : Kept P) (e : Ends P Q) (dr : Reg) (ea : Word) (s : State) (h : P s) :
    Q (loadIndirectFrom dr ea s) := by
  cases hr : s.memRead ea with
  | none =>
    rw [loadIndirectFrom_of_block hr]
    exact e.block _ _ h (by simpa [Wait.legal] using (memRead_none.mp hr).1) (memRead_none.mp hr).2
  | some p =>
    rw [loadIndirectFrom_of_read (p := p.1) (s1 := p.2) hr]
    exact loadFrom_ends k e _ _ _ (k.memRead (v := p.1) hr h)

theorem storeIndirectFrom_ends (k : Kept P) (e : Ends P Q) (sr : Reg) (ea : Word) (s : State) (h : P s) :
    Q (storeIndirectFrom sr ea s) := by
  cases hr : s.memRead ea with
  | none =>
    rw [storeIndirectFrom_of_block hr]
    exact e.block _ _ h (by simpa [Wait.legal] using (memRead_none.mp hr).1) (memRead_none.mp hr).2
  | some p =>
    rw [storeIndirectFrom_of_read (p := p.1) (s1 := p.2) hr]
    exact e.done _ (k.memWrite _ _ _ (k.memRead (v := p.1) hr h))

theorem readCharacter_ends (k : Kept P) (e : Ends P Q) (s : State) (h : P s) : Q (readCharacter s) := by
  cases hi : s.input with
  | nil =>
    rw [readCharacter_of_nil hi]
    exact e.block _ _ h rfl hi
  | cons b rest =>
    rw [readCharacter_of_cons hi]
    exact e.done _ (k.writeReg _ _ _ (k.advanceInput s b rest hi h))

theorem putsLoop_ends (k : Kept P) (e : Ends P Q) (left : Nat) :
    ∀ a s, P s → Q (putsLoop left a s) := by
  induction left with
  | zero =>
    intro a s h
    cases hr : s.memRead a with
    | none =>
      simp only [putsLoop, hr]
      exact e.block _ _ h (by simpa [Wait.legal] using (memRead_none.mp hr).1) (memRead_none.mp hr).2
    | some p =>
      have h1 : P p.2 := k.memRead (v := p.1) hr h
      simp only [putsLoop, hr]
      split
      · exact e.done _ h1
      · exact e.done _ (k.outBytes _ _ h1)
  | succ n ih =>
    intro a s h
    cases hr : s.memRead a with
    | none =>
      simp only [putsLoop, hr]
      exact e.block _ _ h (by simpa [Wait.legal] using (memRead_none.mp hr).1) (memRead_none.mp hr).2
    | some p =>
      have h1 : P p.2 := k.memRead (v := p.1) hr h
      simp only [putsLoop, hr]
      split
      · exact e.done _ h1
      · exact ih _ _ (k.outBytes _ _ h1)

theorem putspLoop_ends (k : Kept P) (e : Ends P Q) (left : Nat) :
    ∀ a s, P s → Q (putspLoop left a s) := by
  induction left with
  | zero =>
    intro a s h
    cases hr : s.memRead a with
    | none =>
      simp only [putspLoop, hr]
      exact e.block _ _ h (by simpa [Wait.legal] using (memRead_none.mp hr).1) (memRead_none.mp hr).2
    | some p =>
      have h1 : P p.2 := k.memRead (v := p.1) hr h
      simp only [putspLoop, hr]
      split
      · exact e.done _ h1
      · exact e.done _ (k.outBytes _ _ h1)
  | succ n ih =>
    intro a s h
    cases hr : s.memRead a with
    | none =>
      simp only [putspLoop, hr]
      exact e.block _ _ h (by simpa [Wait.legal] using (memRead_none.mp hr).1) (memRead_none.mp hr).2
    | some p =>
      have h1 : P p.2 := k.memRead (v := p.1) hr h
      simp only [putspLoop, hr]
      split
      · exact e.done _ h1
      · exact ih _ _ (k.outBytes _ _ h1)

theorem runRoutine_ends (k : Kept P) (e : Ends P Q) (r : TrapRoutine) (s : State) (h : P s) :
    Q (runRoutine r s) := by
  cases r with
  | getc => exact readCharacter_ends k e s h
  | out => exact e.done _ (k.outBytes _ _ (k.outBytes _ _ h))
  | puts => exact putsLoop_ends k e _ _ s h
  | inChar => exact readCharacter_ends k e _ (k.outBytes _ _ h)
  | putsp => exact putspLoop_ends k e _ _ s h
  | halt => exact e.halt _ (k.outBytes _ _ h)

/-- A property that the loops of PUTS and PUTSP keep: they only read, output and wait. -/
theorem putsLoop_keeps (hblock : ∀ s w, P s → P (s.block w))
    (hread : ∀ s a v s1, P s → s.memRead a = some (v, s1) → P s1) (hout : ∀ s bs, P s → P (s.outBytes bs))
    (left : Nat) : ∀ a s, P s → P (putsLoop left a s) ∧ P (putspLoop left a s) := by
  induction left with
  | zero =>
    intro a s h
    cases e : s.memRead a with
    | none =>
      simp only [putsLoop, putspLoop, e]
      exact ⟨hblock _ _ h, hblock _ _ h⟩
    | some p =>
      have h1 : P p.2 := hread _ _ p.1 _ h e
      simp only [putsLoop, putspLoop, e]
      constructor <;> split <;> first | exact h1 | exact hout _ _ h1
  | succ n ih =>
    intro a s h
    cases e : s.memRead a with
    | none =>
      simp only [putsLoop, putspLoop, e]
      exact ⟨hblock _ _ h, hblock _ _ h⟩
    | some p =>
      have h1 : P p.2 := hread _ _ p.1 _ h e
      simp only [putsLoop, putspLoop, e]
      constructor <;> split
      · exact h1
      · exact (ih _ _ (hout _ _ h1)).1
      · exact h1
      · exact (ih _ _ (hout _ _ h1)).2

/-- A property that a routine keeps: GETC and IN alone write a register, and HALT alone halts. -/
theorem runRoutine_keeps (hblock : ∀ s w, P s → P (s.block w))
    (hread : ∀ s a v s1, P s → s.memRead a = some (v, s1) → P s1) (hout : ∀ s bs, P s → P (s.outBytes bs))
    (hin : ∀ s rest, P s → P (s.advanceInput rest)) (r : TrapRoutine)
    (hhalt : r = .halt → ∀ s, P s → P s.halt)
    (hreg : r = .getc ∨ r = .inChar → ∀ s v, P s → P (s.writeReg .r0 v)) (s : State) (h : P s) :
    P (runRoutine r s) := by
  have rc : r = .getc ∨ r = .inChar → ∀ s, P s → P (readCharacter s) := by
    intro hr s h
    cases e : s.input with
    | nil =>
      rw [readCharacter_of_nil e]
      exact hblock _ _ h
    | cons b rest =>
      rw [readCharacter_of_cons e]
      exact hreg hr _ _ (hin _ _ h)
  cases r with
  | getc => exact rc (.inl rfl) s h
  | out => exact hout _ _ (hout _ _ h)
  | puts => exact (putsLoop_keeps hblock hread hout _ _ _ h).1
  | inChar => exact rc (.inr rfl) _ (hout _ _ h)
  | putsp => exact (putsLoop_keeps hblock hread hout _ _ _ h).2
  | halt => exact hhalt rfl _ (hout _ _ h)

/-- Every instruction is a chain of the operations of `Kept` that ends as `Ends` says. -/
theorem exec_ends (k : Kept P) (e : Ends P Q) (i : Instr) {s t : State} (h : P s)
    (ht : exec i s = .next t) : Q t := by
  cases i with
  | addReg _ _ _ => cases ht; exact e.done _ (k.writeResult _ _ h)
  | addImm _ _ _ => cases ht; exact e.done _ (k.writeResult _ _ h)
  | andReg _ _ _ => cases ht; exact e.done _ (k.writeResult _ _ h)
  | andImm _ _ _ => cases ht; exact e.done _ (k.writeResult _ _ h)
  | not _ _ => cases ht; exact e.done _ (k.writeResult _ _ h)
  | ld _ _ => cases ht; exact loadFrom_ends k e _ _ _ h
  | st _ _ => cases ht; exact e.done _ (k.memWrite _ _ _ h)
  | ldi _ _ => cases ht; exact loadIndirectFrom_ends k e _ _ _ h
  | sti _ _ => cases ht; exact storeIndirectFrom_ends k e _ _ _ h
  | ldr _ _ _ => cases ht; exact loadFrom_ends k e _ _ _ h
  | str _ _ _ => cases ht; exact e.done _ (k.memWrite _ _ _ h)
  | lea _ _ => cases ht; exact e.done _ (k.writeResult _ _ h)
  | br nzp off =>
    simp only [exec, execBr, Host.Outcome.next.injEq] at ht
    subst ht
    split
    · exact e.done _ (k.writePc _ _ h)
    · exact e.done _ h
  | jmp _ => cases ht; exact e.done _ (k.writePc _ _ h)
  | jsr _ => cases ht; exact e.done _ (k.writePc _ _ (k.writeReg _ _ _ h))
  | jsrr _ => cases ht; exact e.done _ (k.writePc _ _ (k.writeReg _ _ _ h))
  | rti => cases ht; exact e.fatal _ _ (by decide) h
  | res => cases ht; exact e.fatal _ _ (by decide) h
  | trap v =>
    simp only [exec, execTrap] at ht
    split at ht
    · cases ht; exact runRoutine_ends k e _ _ (k.trapEnter h)
    · cases ht; exact e.fatal _ _ (by decide) (k.trapEnter h)
  | trapGetc => cases ht; exact runRoutine_ends k e .getc _ (k.trapEnter h)
  | trapOut => cases ht; exact runRoutine_ends k e .out _ (k.trapEnter h)
  | trapPuts => cases ht; exact runRoutine_ends k e .puts _ (k.trapEnter h)
  | trapIn => cases ht; exact runRoutine_ends k e .inChar _ (k.trapEnter h)
  | trapPutsp => cases ht; exact runRoutine_ends k e .putsp _ (k.trapEnter h)
  | trapHalt => cases ht; exact runRoutine_ends k e .halt _ (k.trapEnter h)
  | trapOther _ => cases ht; exact e.fatal _ _ (by decide) (k.trapEnter h)

/-- A whole cycle. -/
theorem cycle_ends (k : Kept P) (e : Ends P Q) {s t : State} (h : P s) (ht : cycle s = .next t) : Q t := by
  unfold cycle at ht
  cases hr : s.memRead s.pc with
  | none =>
    rw [hr] at ht
    cases ht
    exact e.block _ _ h (by simpa [Wait.legal] using (memRead_none.mp hr).1) (memRead_none.mp hr).2
  | some p =>
    rw [hr] at ht
    exact exec_ends k e _ (k.writePc _ _ (k.memRead (v := p.1) hr h)) ht

@[simp] theorem resume_fetch (s : State) : resume .fetch s = cycle s := rfl

@[simp] theorem resume_load (dr : Reg) (ea : Word) (s : State) :
    resume (.load dr ea) s = .next (loadFrom dr ea s) := rfl

@[simp] theorem resume_loadPointer (dr : Reg) (ea : Word) (s : State) :
    resume (.loadPointer dr ea) s = .next (loadIndirectFrom dr ea s) := rfl

@[simp] theorem resume_storePointer (sr : Reg) (ea : Word) (s : State) :
    resume (.storePointer sr ea) s = .next (storeIndirectFrom sr ea s) := rfl

@[simp] theorem resume_character (s : State) : resume .character s = .next (readCharacter s) := rfl

@[simp] theorem resume_puts (a : Word) (s : State) : resume (.puts a) s = .next (putsFrom a s) := rfl

@[simp] theorem resume_putsp (a : Word) (s : State) : resume (.putsp a) s = .next (putspFrom a s) := rfl

theorem cycle_of_read {s s1 : State} {I : Word} (h : s.memRead s.pc = some (I, s1)) :
    cycle s = exec (decode I) (s1.writePc (s1.pc + 1#16)) := by
  simp [cycle, h]

theorem cycle_of_block {s : State} (h : s.memRead s.pc = none) : cycle s = .next (s.block .fetch) := by
  simp [cycle, h]

theorem stepRunning_of_none {s : State} (h : s.waiting = none) : stepRunning s = cycle s := by
  simp [stepRunning, h]

theorem stepRunning_of_waiting {s : State} {w : Wait} (h : s.waiting = some w) :
    stepRunning s = resume w s.unblock := by
  simp [stepRunning, h]

/-- What is left of a cycle that waited. -/
theorem resume_ends (k : Kept P) (e : Ends P Q) (w : Wait) {s t : State} (h : P s)
    (ht : resume w s = .next t) : Q t := by
  cases w with
  | fetch => exact cycle_ends k e h ht
  | load dr ea => cases ht; exact loadFrom_ends k e _ _ _ h
  | loadPointer dr ea => cases ht; exact loadIndirectFrom_ends k e _ _ _ h
  | storePointer sr ea => cases ht; exact storeIndirectFrom_ends k e _ _ _ h
  | character => cases ht; exact readCharacter_ends k e _ h
  | puts a => cases ht; exact putsLoop_ends k e _ _ _ h
  | putsp a => cases ht; exact putspLoop_ends k e _ _ _ h

/-- Only a RUNNING core steps. -/
theorem step_next_running {s t : State} (h : step s = .next t) : s.run = .running ∧ stepRunning s = .next t := by
  unfold step at h
  split at h
  · exact ⟨by assumption, h⟩
  · cases h
  · cases h

theorem step_of_running {s : State} (h : s.run = .running) : step s = stepRunning s := by
  simp [step, h]

/-- One step: it starts from the state with the wait taken off, and is a chain of the operations of `Kept` that ends
as `Ends` says. -/
theorem step_ends (k : Kept P) (e : Ends P Q) {s t : State} (h : P s.unblock) (ht : step s = .next t) : Q t := by
  have hs := (step_next_running ht).2
  unfold stepRunning at hs
  split at hs
  · rename_i hw
    rw [State.unblock_of_none s hw] at h
    exact cycle_ends k e h hs
  · exact resume_ends k e _ h hs

/-- The simplest use: a property that every operation keeps and no end spoils holds after a step. -/
theorem step_keeps (k : Kept P) (e : Ends P P) (hu : ∀ s, P s → P s.unblock) {s t : State} (h : P s)
    (ht : step s = .next t) : P t :=
  step_ends k e (hu s h) ht

end Sys2Proof.Machine
end

