-- ==== Sys2Proof/Laws/Operands.lean ====
section
/-! SUPPORT. What the operand forms and BR's test compute, said once: R27's sign extension is the library's, and a
sum of words is a sum modulo 2^16. -/

namespace Sys2Proof.Machine

/-- The word R27 puts over the value: ones from bit `m` on. -/
theorem onesFrom_getLsbD (m : Nat) (hm : m ≤ 16) (k : Nat) (hk : k < 16) :
    (0xFFFF#16 - (BitVec.ofNat 16 (2 ^ m) - 1#16)).getLsbD k = decide (m ≤ k) := by
  have h : ∀ m : Fin 17, ∀ k : Fin 16,
      (0xFFFF#16 - (BitVec.ofNat 16 (2 ^ m.val) - 1#16)).getLsbD k.val = decide (m.val ≤ k.val) := by decide
  exact h ⟨m, by omega⟩ ⟨k, hk⟩

/-- R27's pseudocode is two's complement sign extension. -/
theorem sext_eq_signExtend {n : Nat} (v : BitVec n) (h : n ≤ 16) : sext v = v.signExtend 16 := by
  apply BitVec.eq_of_getLsbD_eq
  intro k hk
  rw [BitVec.getLsbD_signExtend, BitVec.msb_eq_getLsbD_last]
  unfold sext
  by_cases hs : v.getLsbD (n - 1) = true
  · rw [if_pos hs, BitVec.getLsbD_or, onesFrom_getLsbD n h k hk]
    by_cases hkn : k < n
    · simp [hk, hkn]
    · simp [hk, hkn, hs]
      omega
  · rw [if_neg hs]
    by_cases hkn : k < n
    · simp [hk, hkn]
    · have : v.getLsbD k = false := BitVec.getLsbD_of_ge _ _ (by omega)
      simp [hk, hkn, this, hs]

/-- Adding a word read as two's complement. -/
theorem add_toNat_of_toInt {x y : Word} {z : Int} (h : y.toInt = z) :
    ((x + y).toNat : Int) = ((x.toNat : Int) + z) % 65536 := by
  rw [← h, BitVec.toNat_add, BitVec.toInt_eq_toNat_cond]
  split <;> omega

/-- BR's test, bit by bit. -/
theorem branchTaken_iff (s : State) (nzp : BitVec 3) :
    s.branchTaken nzp = true ↔ ∃ k, k < 3 ∧ nzp.getLsbD k = true ∧ s.cond.getLsbD k = true := by
  unfold State.branchTaken
  generalize s.cond = c
  revert nzp c
  decide

@[simp] theorem flagOf_zero : flagOf 0x0000#16 = .zero := rfl

theorem flagOf_of_msb {v : Word} (h : v.msb = true) : flagOf v = .negative := by
  have h15 : v.getLsbD 15 = true := by simpa [BitVec.msb_eq_getLsbD_last] using h
  have h0 : v ≠ 0x0000#16 := by
    rintro rfl
    exact absurd h (by decide)
  unfold flagOf
  rw [if_neg h0, if_pos h15]

theorem flagOf_of_not_msb {v : Word} (h : v.msb = false) (h0 : v ≠ 0x0000#16) : flagOf v = .positive := by
  have h15 : ¬ v.getLsbD 15 = true := by simpa [BitVec.msb_eq_getLsbD_last] using h
  unfold flagOf
  rw [if_neg h0, if_neg h15]

end Sys2Proof.Machine
end

