-- ==== Sys2Proof/Laws/PerInstr.lean ====
section
/-! SUPPORT. What holds of every instruction as syntax, one lemma per constructor. -/

namespace Sys2Proof.Laws

/-- The canonical form of an instruction is well formed and has the same word, and so does an instruction that is
well formed already. -/
def CanonicalForm.Statement (i : Instr) : Prop :=
  i.canonical.wf = true ∧ encode i.canonical = encode i ∧ (i.wf = true → i.canonical = i)

theorem CanonicalForm.addReg (dr sr1 sr2 : Reg) : CanonicalForm.Statement (.addReg dr sr1 sr2) :=
  ⟨rfl, rfl, fun _ => rfl⟩

theorem CanonicalForm.addImm (dr sr1 : Reg) (imm5 : BitVec 5) : CanonicalForm.Statement (.addImm dr sr1 imm5) :=
  ⟨rfl, rfl, fun _ => rfl⟩

theorem CanonicalForm.andReg (dr sr1 sr2 : Reg) : CanonicalForm.Statement (.andReg dr sr1 sr2) :=
  ⟨rfl, rfl, fun _ => rfl⟩

theorem CanonicalForm.andImm (dr sr1 : Reg) (imm5 : BitVec 5) : CanonicalForm.Statement (.andImm dr sr1 imm5) :=
  ⟨rfl, rfl, fun _ => rfl⟩

theorem CanonicalForm.not (dr sr1 : Reg) : CanonicalForm.Statement (.not dr sr1) :=
  ⟨rfl, rfl, fun _ => rfl⟩

theorem CanonicalForm.ld (dr : Reg) (off : BitVec 9) : CanonicalForm.Statement (.ld dr off) :=
  ⟨rfl, rfl, fun _ => rfl⟩

theorem CanonicalForm.st (sr : Reg) (off : BitVec 9) : CanonicalForm.Statement (.st sr off) :=
  ⟨rfl, rfl, fun _ => rfl⟩

theorem CanonicalForm.ldi (dr : Reg) (off : BitVec 9) : CanonicalForm.Statement (.ldi dr off) :=
  ⟨rfl, rfl, fun _ => rfl⟩

theorem CanonicalForm.sti (sr : Reg) (off : BitVec 9) : CanonicalForm.Statement (.sti sr off) :=
  ⟨rfl, rfl, fun _ => rfl⟩

theorem CanonicalForm.ldr (dr baseR : Reg) (off : BitVec 6) : CanonicalForm.Statement (.ldr dr baseR off) :=
  ⟨rfl, rfl, fun _ => rfl⟩

theorem CanonicalForm.str (sr baseR : Reg) (off : BitVec 6) : CanonicalForm.Statement (.str sr baseR off) :=
  ⟨rfl, rfl, fun _ => rfl⟩

theorem CanonicalForm.lea (dr : Reg) (off : BitVec 9) : CanonicalForm.Statement (.lea dr off) :=
  ⟨rfl, rfl, fun _ => rfl⟩

theorem CanonicalForm.br (nzp : BitVec 3) (off : BitVec 9) : CanonicalForm.Statement (.br nzp off) :=
  ⟨rfl, rfl, fun _ => rfl⟩

theorem CanonicalForm.jmp (baseR : Reg) : CanonicalForm.Statement (.jmp baseR) :=
  ⟨rfl, rfl, fun _ => rfl⟩

theorem CanonicalForm.jsr (off : BitVec 11) : CanonicalForm.Statement (.jsr off) :=
  ⟨rfl, rfl, fun _ => rfl⟩

theorem CanonicalForm.jsrr (baseR : Reg) : CanonicalForm.Statement (.jsrr baseR) :=
  ⟨rfl, rfl, fun _ => rfl⟩

theorem CanonicalForm.rti : CanonicalForm.Statement .rti :=
  ⟨rfl, rfl, fun _ => rfl⟩

theorem CanonicalForm.res : CanonicalForm.Statement .res :=
  ⟨rfl, rfl, fun _ => rfl⟩

theorem CanonicalForm.trap (v : BitVec 8) : CanonicalForm.Statement (.trap v) :=
  ⟨trapRow_wf v, encode_trapRow v, Instr.canonical_of_wf _⟩

theorem CanonicalForm.trapGetc : CanonicalForm.Statement .trapGetc :=
  ⟨rfl, rfl, fun _ => rfl⟩

theorem CanonicalForm.trapOut : CanonicalForm.Statement .trapOut :=
  ⟨rfl, rfl, fun _ => rfl⟩

theorem CanonicalForm.trapPuts : CanonicalForm.Statement .trapPuts :=
  ⟨rfl, rfl, fun _ => rfl⟩

theorem CanonicalForm.trapIn : CanonicalForm.Statement .trapIn :=
  ⟨rfl, rfl, fun _ => rfl⟩

theorem CanonicalForm.trapPutsp : CanonicalForm.Statement .trapPutsp :=
  ⟨rfl, rfl, fun _ => rfl⟩

theorem CanonicalForm.trapHalt : CanonicalForm.Statement .trapHalt :=
  ⟨rfl, rfl, fun _ => rfl⟩

theorem CanonicalForm.trapOther (v : BitVec 8) : CanonicalForm.Statement (.trapOther v) :=
  ⟨trapRow_wf v, encode_trapRow v, Instr.canonical_of_wf _⟩

end Sys2Proof.Laws
end

