-- ==== Sys2Proof/Laws/Run.lean ====
section
/-! SUPPORT. A run of the host's `Core.run`, one step at a time. -/

namespace Sys2Proof.Machine

theorem run_succ_of_next {M : Host.Core} {s t : M.State} (k : Nat) (h : M.step s = .next t) :
    M.run (k + 1) s = M.run k t := by
  simp only [Host.Core.run, h]

theorem core_run_zero (s : State) : Sys2Proof.core.run 0 s = .next s := rfl

/-- A run of `k + 1` steps of this machine begins with a step. -/
theorem core_run_succ_of_next {s t : State} (k : Nat) (h : step s = .next t) :
    Sys2Proof.core.run (k + 1) s = Sys2Proof.core.run k t :=
  run_succ_of_next (M := Sys2Proof.core) k h

end Sys2Proof.Machine
end

