-- ==== Sys2Proof/Laws/Strings.lean ====
section
/-! SUPPORT. Words that stand one after another in memory: what the scans of PUTS and PUTSP need at each iteration. -/

namespace Sys2Proof.Machine

theorem add_one_add_ofNat (a : Word) (i : Nat) :
    a + 1#16 + BitVec.ofNat 16 i = a + BitVec.ofNat 16 (i + 1) := by
  rw [BitVec.add_assoc]
  congr 1
  apply BitVec.eq_of_toNat_eq
  simp
  omega

theorem toNat_add_one {a : Word} (h : a.toNat + 1 < 65536) : (a + 1#16).toNat = a.toNat + 1 := by
  rw [BitVec.toNat_add]
  simp
  omega

/-- The first word of a run of words is read without waiting. -/
theorem holdsWords_head {s : State} {a w : Word} {ws : List Word} (h : s.holdsWords a (w :: ws)) :
    s.memRead a = some (w, s) := by
  have h0 := h.2 0 (by simp)
  simp at h0
  rw [memRead_of_ne h0.2, h0.1]

/-- The rest of a run of words, after the output of anything. -/
theorem holdsWords_tail {s : State} {a w : Word} {ws : List Word} (h : s.holdsWords a (w :: ws))
    (ha : a.toNat + 1 < 65536) (bs : List Byte) : (s.outBytes bs).holdsWords (a + 1#16) ws := by
  refine ⟨?_, fun i hi => ?_⟩
  · have := h.1
    rw [toNat_add_one ha]
    simp at this
    omega
  · have := h.2 (i + 1) (by simp; omega)
    rw [add_one_add_ofNat]
    simpa using this

/-- TRAP's first line leaves a run of words as it is. -/
theorem holdsWords_trapEnter {s : State} {a : Word} {ws : List Word} (h : s.holdsWords a ws) :
    s.trapEnter.holdsWords a ws :=
  ⟨h.1, fun i hi => by simpa using h.2 i hi⟩

/-- PUTS outputs the characters of R173. -/
theorem lowByte_eq_character : lowByte = character := by
  funext w
  apply BitVec.eq_of_toNat_eq
  simp [character]

theorem highByte_eq (w : Word) : highByte w = BitVec.ofNat 8 (w.toNat / 256) := by
  apply BitVec.eq_of_toNat_eq
  simp [highByte, BitVec.extractLsb'_toNat, Nat.shiftRight_eq_div_pow]

/-- PUTSP outputs the characters of R175. -/
theorem packedBytes_eq_packedCharacters : packedBytes = packedCharacters := by
  funext w
  have h : highByte w = 0x00#8 ↔ w.toNat / 256 = 0 := by
    have := w.isLt
    rw [highByte_eq, ← BitVec.toNat_inj]
    simp
    omega
  unfold packedBytes packedCharacters
  rw [lowByte_eq_character]
  by_cases h0 : w.toNat / 256 = 0
  · rw [if_pos h0, if_neg (not_not.mpr (h.mpr h0))]
  · rw [if_neg h0, if_pos (mt h.mp h0), highByte_eq]

/-- Where a scan has passed `KBSR_ADDR`, a string stands: memory ends. -/
theorem exists_holdsString (s : State) (n : Nat) :
    ∀ a : Word, wordsAfter a = n → s.cfg.kbsrAddr.toNat < a.toNat → ∃ ws, s.holdsString a ws := by
  induction n with
  | zero =>
    intro a ha hk
    have hlast : a.toNat = 65535 := by
      have := a.isLt
      unfold wordsAfter at ha
      omega
    have hne : a ≠ s.cfg.kbsrAddr := fun e => by rw [e] at hk; omega
    by_cases h0 : s.mem.read a = 0x0000#16
    · exact ⟨[], ⟨by simp; omega, fun i hi => absurd hi (by simp)⟩, by simp, .inr (by simpa using ⟨h0, hne⟩)⟩
    · refine ⟨[s.mem.read a], ⟨by simp; omega, fun i hi => ?_⟩, by simpa using h0, .inl (by simp; omega)⟩
      obtain rfl : i = 0 := by simpa using hi
      simpa using hne
  | succ n ih =>
    intro a ha hk
    have hlt : a.toNat + 1 < 65536 := by
      unfold wordsAfter at ha
      omega
    have hne : a ≠ s.cfg.kbsrAddr := fun e => by rw [e] at hk; omega
    by_cases h0 : s.mem.read a = 0x0000#16
    · exact ⟨[], ⟨by simp; omega, fun i hi => absurd hi (by simp)⟩, by simp, .inr (by simpa using ⟨h0, hne⟩)⟩
    · have ha1 : wordsAfter (a + 1#16) = n := by
        unfold wordsAfter at ha ⊢
        rw [toNat_add_one hlt]
        omega
      obtain ⟨ws, ⟨hlen, hws⟩, hnz, hend⟩ := ih (a + 1#16) ha1 (by rw [toNat_add_one hlt]; omega)
      rw [toNat_add_one hlt] at hlen hend
      refine ⟨s.mem.read a :: ws, ⟨by simp; omega, fun i hi => ?_⟩, ?_, ?_⟩
      · cases i with
        | zero => simpa using hne
        | succ i =>
          have := hws i (by simpa using hi)
          rw [add_one_add_ofNat] at this
          simpa using this
      · intro w hw
        rcases List.mem_cons.mp hw with rfl | hw
        · exact h0
        · exact hnz w hw
      · rw [add_one_add_ofNat] at hend
        rcases hend with h | h
        · exact .inl (by simp; omega)
        · exact .inr (by simpa using h)

/-- TRAP's first line and a read do not see each other. -/
theorem memRead_trapEnter {s s1 : State} {a v : Word} (h : s.memRead a = some (v, s1)) :
    ∃ t1, s.trapEnter.memRead a = some (v, t1) ∧ t1.mem = s1.mem ∧ t1.input = s1.input ∧
      t1.consumed = s1.consumed ∧ t1.regs = s.trapEnter.regs := by
  rcases memRead_some h with ⟨h1, rfl, rfl⟩ | ⟨rfl, b, rest, hi, rfl, rfl⟩
  · exact ⟨_, by rw [memRead_of_ne (by simpa using h1), State.trapEnter_mem], by simp, by simp, by simp, rfl⟩
  · have hm : ((s.trapEnter.advanceInput rest).refresh b).mem = ((s.advanceInput rest).refresh b).mem := by
      simp [State.refresh, State.memWrite]
      split <;> rfl
    have hr := memRead_kbsr (s := s.trapEnter) (b := b) (rest := rest) (by simpa using hi)
    rw [State.trapEnter_cfg, hm] at hr
    exact ⟨_, hr, hm, by simp, by simp, by simp⟩

end Sys2Proof.Machine
end

