-- ==== Sys2Proof/Laws/Supply.lean ====
section
/-! SUPPORT. Input that the host supplies behind what is there changes nothing of what a completed read does. -/

namespace Sys2Proof.Machine

theorem refresh_supply (s : State) (b : Byte) (bs : List Byte) :
    (s.supply bs).refresh b = (s.refresh b).supply bs := by
  unfold State.refresh
  split <;> rfl

theorem advanceInput_supply (s : State) (rest bs : List Byte) :
    (s.supply bs).advanceInput (rest ++ bs) = (s.advanceInput rest).supply bs := rfl

/-- A read that completes does the same with more input behind. -/
theorem memRead_supply {s s1 : State} {a v : Word} (bs : List Byte) (h : s.memRead a = some (v, s1)) :
    (s.supply bs).memRead a = some (v, s1.supply bs) := by
  rcases memRead_some h with ⟨h1, rfl, rfl⟩ | ⟨rfl, b, rest, hi, rfl, rfl⟩
  · exact memRead_of_ne h1
  · have hi' : (s.supply bs).input = b :: (rest ++ bs) := by simp [hi]
    have hr := memRead_kbsr hi'
    rw [advanceInput_supply, refresh_supply] at hr
    exact hr

theorem trapEnter_supply (s : State) (bs : List Byte) : (s.supply bs).trapEnter = s.trapEnter.supply bs := by
  unfold State.trapEnter
  by_cases h : s.cfg.trapWritesR7 = true
  · rw [if_pos (show (s.supply bs).cfg.trapWritesR7 = true from h), if_pos h]
    rfl
  · rw [if_neg (show ¬ (s.supply bs).cfg.trapWritesR7 = true from h), if_neg h]

/-- A state in which no cycle waits is what is left of it after a wait. -/
theorem block_unblock_of_none {s : State} {w : Wait} (h : s.waiting = none) : (s.block w).unblock = s := by
  cases s
  cases h
  rfl

end Sys2Proof.Machine
end

