-- ==== Sys2Proof/Tests/Slice0.lean ====
section
/-! SUPPORT. Small tests. The expected results are those of spec/95_test_vectors.md (named S<n> or by section) or are
worked out by hand from the rule named; none comes from the model. Then a witness for every statement of
Obligations.lean that has hypotheses. -/

namespace Sys2Proof.Tests

open Sys2Proof Sys2Proof.Machine

/-! Well-formedness: each check refuses an ill-formed term, and lets its neighbours pass. -/

theorem test_wf_refuses_second_spelling : (Instr.trap 0x20#8).illFormed = some (.secondSpelling 0x20#8) := by decide

theorem test_wf_refuses_known_vector : (Instr.trapOther 0x25#8).illFormed = some (.knownVector 0x25#8) := by decide

theorem test_wf_passes_the_edges :
    (Instr.trapOther 0x1F#8).wf = true ∧ (Instr.trapOther 0x26#8).wf = true ∧ Instr.trapHalt.wf = true := by decide

/-! Decoding: for every constructor a word written out bit by bit from its format in 30_encoding.md R72. -/

/-- `0001 DDD SSS 0 xx TTT`, with the unused bits 11 (section 2.2). -/
theorem test_decode_addReg : decode 0b0001_010_000_0_11_001#16 = .addReg .r2 .r0 .r1 := by decide
/-- `0001 DDD SSS 1 iiiii` (S6). -/
theorem test_decode_addImm : decode 0b0001_001_000_1_10100#16 = .addImm .r1 .r0 0b10100#5 := by decide
/-- `0101 DDD SSS 0 xx TTT`. -/
theorem test_decode_andReg : decode 0b0101_011_001_0_00_010#16 = .andReg .r3 .r1 .r2 := by decide
/-- `0101 DDD SSS 1 iiiii`. -/
theorem test_decode_andImm : decode 0b0101_010_100_1_11110#16 = .andImm .r2 .r4 0b11110#5 := by decide
/-- `1001 DDD SSS xxxxxx`, with the unused bits mixed (R71). -/
theorem test_decode_not : decode 0b1001_100_101_010011#16 = .not .r4 .r5 := by decide
/-- `0010 DDD iiiiiiiii`. -/
theorem test_decode_ld : decode 0b0010_010_100000101#16 = .ld .r2 0b100000101#9 := by decide
/-- `0011 SSS iiiiiiiii`. -/
theorem test_decode_st : decode 0b0011_011_111111110#16 = .st .r3 0b111111110#9 := by decide
/-- `1010 DDD iiiiiiiii`. -/
theorem test_decode_ldi : decode 0b1010_001_000000100#16 = .ldi .r1 0b000000100#9 := by decide
/-- `1011 SSS iiiiiiiii`. -/
theorem test_decode_sti : decode 0b1011_110_000000001#16 = .sti .r6 0b000000001#9 := by decide
/-- `0110 DDD SSS iiiiii`. -/
theorem test_decode_ldr : decode 0b0110_100_110_111110#16 = .ldr .r4 .r6 0b111110#6 := by decide
/-- `0111 SSS BBB iiiiii`. -/
theorem test_decode_str : decode 0b0111_000_110_000011#16 = .str .r0 .r6 0b000011#6 := by decide
/-- `1110 DDD iiiiiiiii`. -/
theorem test_decode_lea : decode 0b1110_000_111111101#16 = .lea .r0 0b111111101#9 := by decide
/-- `0000 nzp iiiiiiiii`. -/
theorem test_decode_br : decode 0b0000_110_000000010#16 = .br 0b110#3 0b000000010#9 := by decide
/-- `1100 xxx BBB xxxxxx`, with the unused bits set. -/
theorem test_decode_jmp : decode 0b1100_111_010_111111#16 = .jmp .r2 := by decide
/-- `0100 1 iiiiiiiiiii`. -/
theorem test_decode_jsr : decode 0b0100_1_00000001010#16 = .jsr 0b00000001010#11 := by decide
/-- `0100 0 xx BBB xxxxxx`, with the unused bits set. -/
theorem test_decode_jsrr : decode 0b0100_0_11_011_111111#16 = .jsrr .r3 := by decide
/-- `1000 xxxxxxxxxxxx`. -/
theorem test_decode_rti : decode 0b1000_111111111111#16 = .rti := by decide
/-- `1101 xxxxxxxxxxxx`. -/
theorem test_decode_res : decode 0b1101_000100100011#16 = .res := by decide
/-- `1111 xxxx vvvvvvvv`: R74's `decode` answers the TRAP row, and the table's note the specific one. -/
theorem test_decode_trap :
    decodeForm 0b1111_0000_11111111#16 = .trap 0xFF#8 ∧ decode 0b1111_0000_11111111#16 = .trapOther 0xFF#8 := by decide
theorem test_decode_trapGetc : decode 0b1111_0000_00100000#16 = .trapGetc := by decide
theorem test_decode_trapOut : decode 0b1111_0000_00100001#16 = .trapOut := by decide
theorem test_decode_trapPuts : decode 0b1111_0000_00100010#16 = .trapPuts := by decide
theorem test_decode_trapIn : decode 0b1111_0000_00100011#16 = .trapIn := by decide
theorem test_decode_trapPutsp : decode 0b1111_0000_00100100#16 = .trapPutsp := by decide
/-- Bits 11..8 are ignored (section 2.2). -/
theorem test_decode_trapHalt : decode 0b1111_0001_00100101#16 = .trapHalt := by decide
theorem test_decode_trapOther : decode 0b1111_0000_00100110#16 = .trapOther 0x26#8 := by decide

theorem test_decodeTableWord :
    decodeTableWord 16 0x1401 = some (.addReg .r2 .r0 .r1) ∧ decodeTableWord 16 0x10000 = none ∧
    decodeTableWord 32 0x1401 = none := by decide

/-! One step each, from a small state. -/

/-- The parameters of section 2's conventions, with a prompt `?`, a message `!` and the default terminator. -/
def cfg : Config where
  kbsrAddr := 0xFE00#16
  kbdrAddr := 0xFE02#16
  startPc := 0x3000#16
  outTerminator := [0x0A#8]
  inPrompt := [0x3F#8]
  haltMessage := [0x21#8]
  trapWritesR7 := false

/-- Reset with `words` in memory and `input` supplied. -/
def boot (words : List (Word × Word)) (input : List Byte) : State :=
  State.resetWith cfg (words.foldr (fun p m => m.write p.1 p.2) Memory.zero) input

/-- What `f` sees of the state after an outcome, if there is one. -/
def see {α : Type} (f : State → α) : Host.Outcome State Fault Refusal → Option α
  | .next t => some (f t)
  | .fault _ => none
  | .refused _ => none

/-- Section 2.1. -/
theorem test_sext :
    sext 0x10#5 = 0xFFF0#16 ∧ sext 0x0F#5 = 0x000F#16 ∧ sext 0x20#6 = 0xFFE0#16 ∧ sext 0x1FD#9 = 0xFFFD#16 ∧
    sext 0x400#11 = 0xFC00#16 ∧ sext 0x3FF#11 = 0x03FF#16 ∧ sext 0x8000#16 = 0x8000#16 := by decide

/-- S2 and section 2.1. -/
theorem test_setcc :
    flagOf 0x0000#16 = .zero ∧ flagOf 0x8000#16 = .negative ∧ flagOf 0x0001#16 = .positive ∧
    flagOf 0x7FFF#16 = .positive ∧ flagOf 0xFFFF#16 = .negative := by decide

/-- R25's bit values. -/
theorem test_flag_bits : Flag.positive.bits = 1#3 ∧ Flag.zero.bits = 2#3 ∧ Flag.negative.bits = 4#3 := by decide

/-- Section 2.3. -/
theorem test_addReg_wraps :
    see (fun t => (t.reg .r2, t.cond, t.pc))
      (step (((boot [(0x3000#16, 0x1401#16)] []).writeReg .r0 0xFFFF#16).writeReg .r1 0x0001#16)) =
      some (0x0000#16, 0b010#3, 0x3001#16) := by decide

/-- S3. -/
theorem test_addImm_minus_one :
    see (fun t => (t.reg .r1, t.cond)) (step ((boot [(0x3000#16, 0x127F#16)] []).writeReg .r1 0x0005#16)) =
      some (0x0004#16, 0b001#3) := by decide

/-- Section 2.3. -/
theorem test_andReg :
    see (fun t => (t.reg .r3, t.cond))
      (step (((boot [(0x3000#16, 0x5642#16)] []).writeReg .r1 0x0F0F#16).writeReg .r2 0x00FF#16)) =
      some (0x000F#16, 0b001#3) := by decide

/-- Section 2.3: a negative immediate keeps the high bits. -/
theorem test_andImm :
    see (fun t => (t.reg .r2, t.cond)) (step ((boot [(0x3000#16, 0x54BE#16)] []).writeReg .r2 0x8001#16)) =
      some (0x8000#16, 0b100#3) := by decide

/-- Section 2.3. -/
theorem test_not :
    see (fun t => (t.reg .r4, t.cond)) (step ((boot [(0x3000#16, 0x997F#16)] []).writeReg .r5 0x00FF#16)) =
      some (0xFF00#16, 0b100#3) := by decide

/-- Section 2.4. -/
theorem test_ld :
    see (fun t => (t.reg .r2, t.cond)) (step (boot [(0x3000#16, 0x2405#16), (0x3006#16, 0x8001#16)] [])) =
      some (0x8001#16, 0b100#3) := by decide

/-- Section 2.4: the address wraps. -/
theorem test_ld_wraps :
    see (fun t => (t.reg .r0, t.pc))
      (step ((boot [(0xFFFF#16, 0x2001#16), (0x0001#16, 0x0123#16)] []).writePc 0xFFFF#16)) =
      some (0x0123#16, 0x0000#16) := by decide

/-- Section 2.4. -/
theorem test_st :
    see (fun t => (t.mem.read 0x300F#16, t.cond))
      (step (((boot [(0x3010#16, 0x37FE#16)] []).writePc 0x3010#16).writeReg .r3 0x1234#16)) =
      some (0x1234#16, 0b000#3) := by decide

/-- S5: the value, not the pointer. -/
theorem test_ldi :
    see (fun t => (t.reg .r1, t.cond))
      (step ((boot [(0x3002#16, 0xA204#16), (0x3007#16, 0x3005#16), (0x3005#16, 0x0048#16)] []).writePc 0x3002#16)) =
      some (0x0048#16, 0b001#3) := by decide

/-- Section 2.4. -/
theorem test_sti :
    see (fun t => (t.mem.read 0x4000#16, t.mem.read 0x3002#16))
      (step ((boot [(0x3000#16, 0xB001#16), (0x3002#16, 0x4000#16)] []).writeReg .r0 0x00AA#16)) =
      some (0x00AA#16, 0x4000#16) := by decide

/-- Section 2.4: the base is read before it is written. -/
theorem test_ldr_base_is_destination :
    see (fun t => (t.reg .r6, t.cond))
      (step ((boot [(0x3000#16, 0x6D80#16), (0x4000#16, 0x1234#16)] []).writeReg .r6 0x4000#16)) =
      some (0x1234#16, 0b001#3) := by decide

/-- Section 2.5, step 1: a read of KBSR takes a byte and refreshes both registers. -/
theorem test_ldr_of_kbsr :
    see (fun t => (t.reg .r0, t.mem.read 0xFE02#16, t.input))
      (step ((boot [(0x3000#16, 0x6180#16)] [0x41#8, 0x00#8, 0x42#8]).writeReg .r6 0xFE00#16)) =
      some (0x8000#16, 0x0041#16, [0x00#8, 0x42#8]) := by decide

/-- Section 2.4. -/
theorem test_str :
    see (fun t => (t.mem.read 0x4003#16, t.reg .r6))
      (step (((boot [(0x3000#16, 0x7183#16)] []).writeReg .r6 0x4000#16).writeReg .r0 0xBEEF#16)) =
      some (0xBEEF#16, 0x4000#16) := by decide

/-- Section 2.4: LEA makes no refresh, and it sets the flags. -/
theorem test_lea_reads_nothing :
    see (fun t => (t.reg .r1, t.cond, t.input))
      (step ((boot [(0xFDFF#16, 0xE200#16)] [0x41#8]).writePc 0xFDFF#16)) =
      some (0xFE00#16, 0b100#3, [0x41#8]) := by decide

/-- Section 2.6: BRnz does not test P. -/
theorem test_br_not_taken :
    see (fun t => t.pc) (step ((boot [(0x3000#16, 0x0C02#16)] []).setcc 0x0001#16)) = some 0x3001#16 := by decide

/-- Section 2.6. -/
theorem test_br_taken_backwards :
    see (fun t => t.pc) (step ((boot [(0x3000#16, 0x0300#16)] []).setcc 0x0001#16)) = some 0x2F01#16 := by decide

/-- Section 2.6. -/
theorem test_jmp :
    see (fun t => t.pc) (step ((boot [(0x3000#16, 0xC080#16)] []).writeReg .r2 0x4000#16)) = some 0x4000#16 := by
  decide

/-- Section 2.6. -/
theorem test_jsr_backwards :
    see (fun t => (t.reg .r7, t.pc)) (step (boot [(0x3000#16, 0x4C00#16)] [])) =
      some (0x3001#16, 0x2C01#16) := by decide

/-- Section 2.6. -/
theorem test_jsrr :
    see (fun t => (t.reg .r7, t.pc)) (step ((boot [(0x3000#16, 0x40C0#16)] []).writeReg .r3 0x5000#16)) =
      some (0x3001#16, 0x5000#16) := by decide

/-- Section 2.6 (D19). -/
theorem test_jsrr_r7 :
    see (fun t => (t.reg .r7, t.pc)) (step ((boot [(0x3000#16, 0x41C0#16)] []).writeReg .r7 0x6000#16)) =
      some (0x3001#16, 0x3001#16) := by decide

/-- Section 2.6. -/
theorem test_rti :
    see (fun t => (t.run, t.pc)) (step (boot [(0x3000#16, 0x8FFF#16)] [])) =
      some (.fatal .rtiOrRes, 0x3001#16) := by decide

/-- Section 2.6. -/
theorem test_res : see (fun t => t.run) (step (boot [(0x3000#16, 0xDFFF#16)] [])) = some (.fatal .rtiOrRes) := by
  decide

/-- R170: the dispatcher, given GETC's vector. -/
theorem test_trap_dispatches : see (fun t => t.reg .r0) (exec (.trap 0x20#8) (boot [] [0x41#8])) = some 0x0041#16 := by
  decide

/-- Section 2.7, the row with `TRAP_WRITES_R7` (D12): it was asked of OUT. -/
theorem test_trap_writes_r7 :
    see (fun t => t.reg .r7)
      (step { boot [(0x3000#16, 0xF021#16)] [] with cfg := { cfg with trapWritesR7 := true } }) =
      some 0x3001#16 := by decide

/-- Section 2.7. -/
theorem test_getc :
    see (fun t => (t.reg .r0, t.input, t.cond)) (step (boot [(0x3000#16, 0xF020#16)] [0xFF#8])) =
      some (0x00FF#16, [], 0b000#3) := by decide

/-- Section 2.7: no byte, so the cycle waits after the pc increment. -/
theorem test_getc_waits :
    see (fun t => (t.run, t.pc, t.waiting)) (step (boot [(0x3000#16, 0xF020#16)] [])) =
      some (.running, 0x3001#16, some .character) := by decide

/-- Section 2.7. -/
theorem test_out :
    see (fun t => t.output) (step ((boot [(0x3000#16, 0xF021#16)] []).writeReg .r0 0x1241#16)) =
      some [0x41#8, 0x0A#8] := by decide

/-- Section 2.7. -/
theorem test_puts :
    see (fun t => (t.output, t.reg .r0))
      (step ((boot [(0x3000#16, 0xF022#16), (0x3005#16, 0x0048#16), (0x3006#16, 0x0069#16)] []).writeReg .r0
        0x3005#16)) =
      some ([0x48#8, 0x69#8], 0x3005#16) := by decide

/-- Section 2.7: the scan stops at 0xFFFF. -/
theorem test_puts_end_of_memory :
    see (fun t => t.output)
      (step ((boot [(0x3000#16, 0xF022#16), (0xFFFF#16, 0x0041#16), (0x0000#16, 0x0042#16)] []).writeReg .r0
        0xFFFF#16)) =
      some [0x41#8] := by decide

/-- Section 2.7. -/
theorem test_in :
    see (fun t => (t.output, t.reg .r0)) (step (boot [(0x3000#16, 0xF023#16)] [0x37#8])) =
      some ([0x3F#8], 0x0037#16) := by decide

/-- S7. -/
theorem test_putsp_low_byte_first :
    see (fun t => t.output)
      (step ((boot [(0x3000#16, 0xF024#16), (0x4000#16, 0x4241#16)] []).writeReg .r0 0x4000#16)) =
      some [0x41#8, 0x42#8] := by decide

/-- Section 2.7: only the high byte is conditional. -/
theorem test_putsp_zero_bytes :
    see (fun t => t.output)
      (step ((boot [(0x3000#16, 0xF024#16), (0x4000#16, 0x4200#16), (0x4001#16, 0x0043#16)] []).writeReg .r0
        0x4000#16)) =
      some [0x00#8, 0x42#8, 0x43#8] := by decide

/-- Section 2.7. -/
theorem test_halt :
    see (fun t => (t.run, t.pc, t.output)) (step ((boot [(0x3005#16, 0xF125#16)] []).writePc 0x3005#16)) =
      some (.halted, 0x3006#16, [0x21#8]) := by decide

/-- Section 2.7. -/
theorem test_trapOther :
    see (fun t => (t.run, t.output)) (step (boot [(0x3000#16, 0xF026#16)] [])) =
      some (.fatal .unknownTrapVector, []) := by decide

/-- Section 2.8: the fetch of KBSR with an input byte runs RTI. -/
theorem test_fetch_from_kbsr :
    see (fun t => (t.run, t.pc)) (step ((boot [] [0x41#8]).writePc 0xFE00#16)) =
      some (.fatal .rtiOrRes, 0xFE01#16) := by decide

/-- Section 2.8: the fetch of KBSR with no byte waits, and the pc is not incremented (R96). -/
theorem test_fetch_from_kbsr_waits :
    see (fun t => (t.run, t.pc)) (step ((boot [] []).writePc 0xFE00#16)) = some (.running, 0xFE00#16) := by decide

/-- R95: HALTED has no further step. -/
theorem test_halted_stops : see (fun t => t.pc) (step (boot [] []).halt) = none := by decide

/-- R90: the termination codes. -/
theorem test_terminationCode :
    RunState.running.terminationCode = none ∧ RunState.halted.terminationCode = some 0 ∧
    (RunState.fatal .rtiOrRes).terminationCode = some 10 ∧ (RunState.fatal .unknownOpcode).terminationCode = some 20 ∧
    (RunState.fatal .unknownTrapVector).terminationCode = some 21 := by decide

/-- A word placed after reset is the first instruction run. -/
theorem test_withFetchWord :
    see (fun t => (t.reg .r1, t.cond)) (step (State.reset.withFetchWord 16 0x1234)) =
      some (0xFFF4#16, 0b100#3) := by decide

/-! Witnesses: for every statement with hypotheses, concrete states and operands that meet them all together, one for
each clause. `O<n>` is the id in OBLIGATIONS.json. -/

/-- O2. -/
theorem witness_resetMeetsTheInvariant : cfg.wf = true ∧ (Memory.zero.write 0xFFFF#16 0x1234#16).wf = true := by decide

/-- O4. -/
theorem witness_decodeOfEncode :
    (Instr.addImm .r7 .r7 0b11111#5).wf = true ∧ (Instr.trapOther 0x26#8).wf = true := by decide

/-- O6: a word with unused bits set and one without. -/
theorem witness_unusedBits :
    0x1018#16 &&& usedBits 0x1000#16 = 0x1000#16 &&& usedBits 0x1000#16 ∧
    0xC1FF#16 &&& usedBits 0xC1C0#16 = 0xC1C0#16 &&& usedBits 0xC1C0#16 := by decide

/-- O7: the least and the greatest width, with a bit below and the bits above. -/
theorem witness_signExtension :
    (1 ≤ 1 ∧ 1 ≤ 16 ∧ 0 < 1 ∧ 1 ≤ 15 ∧ 15 < 16) ∧ (1 ≤ 16 ∧ 16 ≤ 16 ∧ 15 < 16) ∧ (5 ≤ 5 ∧ 5 < 16) := by decide

/-- O8: each sign at its boundary. -/
theorem witness_setcc :
    (0x0000#16).toInt = 0 ∧ (0x8000#16).toInt < 0 ∧ (0xFFFF#16).toInt < 0 ∧ 0 < (0x0001#16).toInt ∧
    0 < (0x7FFF#16).toInt := by decide

/-- O10: an address beside `KBSR_ADDR`, an empty channel, and both kinds of byte. -/
theorem witness_kbsrRead :
    0xFDFF#16 ≠ (boot [] []).cfg.kbsrAddr ∧ 0xFE01#16 ≠ (boot [] []).cfg.kbsrAddr ∧
    0xFE02#16 ≠ (boot [] []).cfg.kbsrAddr ∧ 0xFE02#16 = (boot [] []).cfg.kbdrAddr ∧ (boot [] []).input = [] ∧
    (boot [] [0x01#8]).cfg.wf = true ∧ (boot [] [0x01#8]).input = 0x01#8 :: [] ∧
    (boot [] [0x00#8]).input = 0x00#8 :: [] := by decide

/-- O11. -/
theorem witness_kbsrNeverReadsAStoredWord :
    (boot [] [0x43#8]).cfg.wf = true ∧
    ((((boot [] [0x43#8]).memWrite 0xFE00#16 0x1234#16).memWrite 0xFE02#16 0x5678#16).memRead 0xFE00#16).isSome = true ∧
    ((((boot [] [0x00#8]).memWrite 0xFE00#16 0x1234#16).memWrite 0xFE02#16 0x5678#16).memRead 0xFE00#16).isSome = true := by
  decide

/-- O12: two memories written in two orders. -/
theorem witness_equalMemories :
    let m := (Memory.zero.write 0x0000#16 0x1234#16).write 0xFFFF#16 0x5678#16
    let n := (Memory.zero.write 0xFFFF#16 0x5678#16).write 0x0000#16 0x1234#16
    m.wf = true ∧ n.wf = true ∧ ∀ a, m.read a = n.read a := by
  refine ⟨by decide, by decide, fun a => ?_⟩
  simp only [Memory.read_write]
  by_cases h1 : a = 0xFFFF#16
  · subst h1
    decide
  · simp [h1]

/-- O16: LD of `KBSR_ADDR` and LDR of the last word of memory. -/
theorem witness_loadsRead :
    (((boot [] [0x41#8]).writePc 0xFDFF#16).memRead (((boot [] [0x41#8]).writePc 0xFDFF#16).pcRel9 1#9)).isSome = true ∧
    ((boot [] []).memRead ((boot [] []).baseRel .r0 0b111111#6)).isSome = true ∧
    (boot [] []).baseRel .r0 0b111111#6 = 0xFFFF#16 := by decide

/-- O17: addresses on both sides of `KBSR_ADDR`. -/
theorem witness_plainLoads :
    ((boot [] []).writePc 0xFDFF#16).pcRel9 0#9 ≠ (boot [] []).cfg.kbsrAddr ∧
    ((boot [] []).writeReg .r6 0xFE00#16).baseRel .r6 1#6 ≠ (boot [] []).cfg.kbsrAddr ∧
    (boot [(0x3000#16, 0xFE02#16)] []).pcRel9 0#9 ≠ cfg.kbsrAddr ∧
    (boot [(0x3000#16, 0xFE02#16)] []).mem.read ((boot [(0x3000#16, 0xFE02#16)] []).pcRel9 0#9) ≠ cfg.kbsrAddr := by
  decide

/-- O18: a pointer to `KBSR_ADDR`, with a byte of input. -/
theorem witness_ldi :
    ∃ p s1 v s2, (boot [(0x3000#16, 0xFE00#16)] [0x41#8]).memRead ((boot [(0x3000#16, 0xFE00#16)] [0x41#8]).pcRel9 0#9) =
      some (p, s1) ∧ s1.memRead p = some (v, s2) :=
  ⟨0xFE00#16, boot [(0x3000#16, 0xFE00#16)] [0x41#8], 0x8000#16,
    ((boot [(0x3000#16, 0xFE00#16)] [0x41#8]).advanceInput []).refresh 0x41#8, by decide, by decide⟩

/-- O20: the pointer's own address is `KBSR_ADDR`. -/
theorem witness_sti :
    (((boot [] [0x41#8]).writePc 0xFDFF#16).memRead (((boot [] [0x41#8]).writePc 0xFDFF#16).pcRel9 1#9)).isSome = true := by
  decide

/-- O22: a flag that matches, and one that does not. -/
theorem witness_br :
    (∃ k, k < 3 ∧ (0b110#3).getLsbD k = true ∧ ((boot [] []).setcc 0x8000#16).cond.getLsbD k = true) ∧
    (∀ k, k < 3 → (0b110#3).getLsbD k = true → ((boot [] []).setcc 0x0001#16).cond.getLsbD k = false) :=
  ⟨⟨2, by decide⟩, by decide⟩

/-- O23: the reset value of COND, and a BR with no condition. -/
theorem witness_noBranch :
    (State.reset.cond = 0b000#3 ∨ 0b111#3 = 0b000#3) ∧
    (((boot [] []).setcc 0x0001#16).cond = 0b000#3 ∨ 0b000#3 = 0b000#3) := by decide

/-- O26: a base that is not R7, and R7. -/
theorem witness_jsrr : Reg.r6 ≠ Reg.r7 ∧ Reg.r7 = Reg.r7 := by decide

/-- O27: a call and a state of its subroutine that has left R7 alone. -/
theorem witness_ret :
    ∃ t, exec (.jsr 0b10000000000#11) (boot [] []) = .next t ∧
      exec (.jsrr .r7) (boot [] []) = .next ((boot [] []).link.writePc 0x3000#16) ∧
      ((t.writeReg .r6 0x1234#16).setcc 0x1234#16).reg .r7 = t.reg .r7 :=
  ⟨_, rfl, rfl, rfl⟩

/-- O29: the vectors at the edges. -/
theorem witness_unknownVectors :
    ((0x00#8).toNat < 0x20 ∨ 0x25 < (0x00#8).toNat) ∧ ((0x1F#8).toNat < 0x20 ∨ 0x25 < (0x1F#8).toNat) ∧
    ((0x26#8).toNat < 0x20 ∨ 0x25 < (0x26#8).toNat) ∧ ((0xFF#8).toNat < 0x20 ∨ 0x25 < (0xFF#8).toNat) := by decide

/-- O30: a terminal state, and a step into each of the three. -/
theorem witness_terminalStates :
    (boot [] []).halt.run ≠ .running ∧
    see (fun t => t.run) (step (boot [(0x3000#16, 0xF025#16)] [])) = some .halted ∧
    see (fun t => t.run) (step (boot [(0x3000#16, 0x8000#16)] [])) = some (.fatal .rtiOrRes) ∧
    see (fun t => t.run) (step (boot [(0x3000#16, 0xF01F#16)] [])) = some (.fatal .unknownTrapVector) := by decide

/-- O31: each vector and its neighbours, and a word of the row. -/
theorem witness_trap :
    ((0x1F#8).toNat < 0x20 ∨ 0x25 < (0x1F#8).toNat) ∧ ((0x26#8).toNat < 0x20 ∨ 0x25 < (0x26#8).toNat) ∧
    decodeForm 0xFF25#16 = .trap 0x25#8 := by decide

/-- O32 and O35: a channel with one byte, and with a zero byte. -/
theorem witness_getc :
    (boot [] [0xFF#8]).input = 0xFF#8 :: [] ∧ (boot [] [0x00#8, 0x41#8]).input = 0x00#8 :: [0x41#8] := by decide

/-- No words stand anywhere. -/
theorem holdsWords_nil (s : State) (a : Word) : s.holdsWords a [] :=
  ⟨by have := a.isLt; simp; omega, fun i h => absurd h (by simp)⟩

/-- Two words stand at `a`. -/
theorem holdsWords_two {s : State} {a v w : Word} (h : a.toNat + 2 ≤ 65536)
    (h0 : s.mem.read (a + 0#16) = v ∧ a + 0#16 ≠ s.cfg.kbsrAddr)
    (h1 : s.mem.read (a + 1#16) = w ∧ a + 1#16 ≠ s.cfg.kbsrAddr) : s.holdsWords a [v, w] :=
  ⟨h, fun i hi => match i, hi with
    | 0, _ => h0
    | 1, _ => h1⟩

/-- O34 and O36: a string that a zero word ends, one that the end of memory ends, and an empty one. -/
theorem witness_strings :
    (boot [(0x3005#16, 0x4100#16), (0x3006#16, 0x4241#16)] []).holdsString 0x3005#16 [0x4100#16, 0x4241#16] ∧
    (boot [(0xFFFE#16, 0x0041#16), (0xFFFF#16, 0x0042#16), (0x0000#16, 0x0043#16)] []).holdsString 0xFFFE#16
      [0x0041#16, 0x0042#16] ∧
    (boot [] []).holdsString 0x0000#16 [] ∧
    ((boot [] []).writeReg .r0 0x3005#16).reg .r0 = 0x3005#16 :=
  ⟨⟨holdsWords_two (by decide) (by decide) (by decide), by simp, .inr (by decide)⟩,
    ⟨holdsWords_two (by decide) (by decide) (by decide), by simp, .inl (show (0xFFFE#16).toNat + 2 = 65536 by decide)⟩,
    ⟨holdsWords_nil _ _, by simp, .inr (by decide)⟩, rfl⟩

/-- O38: a waiting form of each kind, and the fetch. -/
theorem witness_inputRequests :
    (boot [] []).input = [] ∧ (boot [] []).run = .running ∧ (boot [] []).waiting = none ∧
    ((boot [] []).writePc 0xFE00#16).pcRel9 0#9 = cfg.kbsrAddr ∧
    ((boot [] []).writeReg .r6 0xFE00#16).baseRel .r6 0#6 = cfg.kbsrAddr ∧
    (boot [(0x3000#16, 0xFE00#16)] []).mem.read ((boot [(0x3000#16, 0xFE00#16)] []).pcRel9 0#9) = cfg.kbsrAddr ∧
    ((boot [] []).writePc 0xFE00#16).pc = ((boot [] []).writePc 0xFE00#16).cfg.kbsrAddr := by decide

/-- O39: two words before `KBSR_ADDR`, and none. -/
theorem witness_putsWaits :
    let s := (boot [(0xFDFE#16, 0x0041#16), (0xFDFF#16, 0x4200#16)] []).writeReg .r0 0xFDFE#16
    let u := (boot [] []).writeReg .r0 0xFE00#16
    (s.holdsWords (s.reg .r0) [0x0041#16, 0x4200#16] ∧ (∀ w ∈ [0x0041#16, 0x4200#16], w ≠ 0x0000#16) ∧
      (s.reg .r0).toNat + [0x0041#16, 0x4200#16].length = s.cfg.kbsrAddr.toNat ∧ s.input = []) ∧
    (u.holdsWords (u.reg .r0) [] ∧ (u.reg .r0).toNat + 0 = u.cfg.kbsrAddr.toNat ∧ u.input = []) := by
  exact ⟨⟨holdsWords_two (by decide) (by decide) (by decide), by simp,
      show (0xFDFE#16).toNat + 2 = (0xFE00#16).toNat by decide, by decide⟩,
    ⟨holdsWords_nil _ _, by decide, by decide⟩⟩

/-- O40 and O41: GETC's wait and a load's wait, without and with a byte of input. -/
theorem witness_waits :
    (((boot [] []).block .character).Inv ∧ ((boot [] []).block .character).waiting ≠ none ∧
      ((boot [] []).block .character).input = []) ∧
    (((boot [] [0x41#8]).block (.load .r0 0xFE00#16)).Inv ∧
      ((boot [] [0x41#8]).block (.load .r0 0xFE00#16)).waiting ≠ none ∧
      ((boot [] [0x41#8]).block (.load .r0 0xFE00#16)).input ≠ []) := by
  unfold State.Inv
  decide

/-- O42: a step that leaves IN waiting. -/
theorem witness_awaitLeavesNoTrace :
    ∃ t, step (boot [(0x3000#16, 0xF023#16)] []) = .next t ∧ t.waiting ≠ none :=
  ⟨_, rfl, by decide⟩

/-- O43: a fetch with no wait, one that had waited, and an encoded word at the pc. -/
theorem witness_stepRunsTheDecodedInstruction :
    let s := boot [(0x3000#16, encode (.addImm .r1 .r0 0b10100#5))] []
    let u := ((boot [] [0x41#8]).writePc 0xFE00#16).block .fetch
    (s.run = .running ∧ s.waiting = none ∧ (s.unblock.memRead s.pc).isSome = true) ∧
    (u.run = .running ∧ u.waiting = some .fetch ∧ (u.unblock.memRead u.pc).isSome = true) ∧
    (s.pc ≠ s.cfg.kbsrAddr ∧ (Instr.addImm .r1 .r0 0b10100#5).wf = true ∧
      s.mem.read s.pc = encode (.addImm .r1 .r0 0b10100#5)) := by decide

/-- O44. -/
theorem witness_running : State.reset.run = .running := by decide

/-- O45: a state that meets the invariant and steps. -/
theorem witness_stepKeepsTheInvariant :
    ∃ t, (boot [(0x3000#16, 0x6180#16)] []).Inv ∧ step (boot [(0x3000#16, 0x6180#16)] []) = .next t :=
  ⟨_, by unfold State.Inv; decide, rfl⟩

/-- O46. -/
theorem witness_condFrame : ∃ t, exec .trapIn (boot [] [0x41#8]) = .next t ∧ flagSetting .trapIn = false :=
  ⟨_, rfl, rfl⟩

/-- O47: a register that is no destination, and TRAP with R7. -/
theorem witness_registerFrame :
    ∃ t, exec .trapOut (boot [] []) = .next t ∧ destination .trapOut ≠ some .r7 ∧
      (isTrap .trapOut = true → Reg.r7 = .r7 → (boot [] []).cfg.trapWritesR7 = false) ∧
      destination (.ldi .r0 0#9) ≠ some .r1 :=
  ⟨_, rfl, by decide, fun _ _ => rfl, by decide⟩

/-- O48: an instruction of each of the two kinds, and a word beside the keyboard registers. -/
theorem witness_memoryFrame :
    (∃ t, exec (.lea .r0 0#9) (boot [] []) = .next t ∧ accessOf (.lea .r0 0#9) = .nothing) ∧
    (∃ t, exec (.ld .r0 0#9) ((boot [] [0x41#8]).writePc 0xFE00#16) = .next t ∧ accessOf (.ld .r0 0#9) = .reads) ∧
    (∃ t, exec (.ld .r0 0#9) (boot [] [0x41#8]) = .next t ∧ accessOf (.ld .r0 0#9) = .reads ∧
      t.consumed = (boot [] [0x41#8]).consumed) ∧
    0xFE01#16 ≠ cfg.kbsrAddr ∧ 0xFE01#16 ≠ cfg.kbdrAddr :=
  ⟨⟨_, rfl, rfl⟩, ⟨_, rfl, rfl⟩, ⟨_, rfl, rfl, by decide⟩, by decide, by decide⟩

/-- O49. -/
theorem witness_channels : ∃ t, step (boot [(0x3000#16, 0xF020#16)] [0x41#8]) = .next t := ⟨_, rfl⟩

/-- O50: section 2.4's self-modifying store. -/
theorem witness_nextFetch :
    let s := (boot [(0x3000#16, 0x3000#16)] []).writeReg .r0 0xF025#16
    s.run = .running ∧ s.waiting = none ∧ s.pc ≠ s.cfg.kbsrAddr ∧ s.pc + 1#16 ≠ s.cfg.kbsrAddr ∧
      s.mem.read s.pc = encode (.st .r0 0#9) := by decide

/-- O51: both kinds of byte. -/
theorem witness_fetchFromKbsr :
    let s := (boot [] [0x41#8]).writePc 0xFE00#16
    let u := (boot [] [0x00#8]).writePc 0xFE00#16
    (s.cfg.wf = true ∧ s.run = .running ∧ s.waiting = none ∧ s.pc = s.cfg.kbsrAddr ∧ s.input = 0x41#8 :: []) ∧
    (u.cfg.wf = true ∧ u.run = .running ∧ u.waiting = none ∧ u.pc = u.cfg.kbsrAddr ∧ u.input = 0x00#8 :: []) := by
  decide

/-- O52: the last three words before `KBSR_ADDR`, and three words across the top of memory. -/
theorem witness_zeroedMemory :
    let s := (boot [] []).writePc 0xFDFD#16
    let u := (boot [] []).writePc 0xFFFE#16
    (s.run = .running ∧ s.waiting = none ∧
      ∀ i, i < 3 → s.mem.read (s.pc + BitVec.ofNat 16 i) = 0x0000#16 ∧ s.pc + BitVec.ofNat 16 i ≠ s.cfg.kbsrAddr) ∧
    (∀ i, i < 3 → u.mem.read (u.pc + BitVec.ofNat 16 i) = 0x0000#16 ∧ u.pc + BitVec.ofNat 16 i ≠ u.cfg.kbsrAddr) := by
  decide

/-- O53: a result of each sign at its boundary, and a word of BR. -/
theorem witness_brTestsTheSign :
    (0xFFFF#16).toInt < 0 ∧ (0x0000#16).toInt = 0 ∧ 0 < (0x0001#16).toInt ∧ (0x0802#16).toNat / 4096 = 0 := by decide

/-- The hypotheses of O54. -/
def ScanReachesKbsr (s : State) (ws : List Word) (b : Byte) (rest : List Byte) : Prop :=
  s.cfg.wf = true ∧ s.holdsWords (s.reg .r0) ws ∧ (∀ w ∈ ws, w ≠ 0x0000#16) ∧
  (s.reg .r0).toNat + ws.length = s.cfg.kbsrAddr.toNat ∧ s.input = b :: rest

/-- Two words that end just before `KBSR_ADDR` and one behind it, with R0 at the first. -/
def scan (b : Byte) : State :=
  (boot [(0xFDFE#16, 0x0041#16), (0xFDFF#16, 0x4200#16), (0xFE01#16, 0x0043#16)] [b]).writeReg .r0 0xFDFE#16

/-- `KBSR_ADDR` is the end of memory, with R0 at it. -/
def scanAtEnd : State :=
  (State.resetWith { cfg with kbsrAddr := 0xFFFF#16 } Memory.zero [0x41#8]).writeReg .r0 0xFFFF#16

/-- O54: a zero byte; a non-zero byte with a string behind `KBSR_ADDR` (the refreshed KBDR is its second word); a
non-zero byte where `KBSR_ADDR` is the end of memory. -/
theorem witness_stringsAcrossKbsr :
    ScanReachesKbsr (scan 0x00#8) [0x0041#16, 0x4200#16] 0x00#8 [] ∧
    (ScanReachesKbsr (scan 0x41#8) [0x0041#16, 0x4200#16] 0x41#8 [] ∧ (scan 0x41#8).cfg.kbsrAddr ≠ 0xFFFF#16 ∧
      ∃ v s1, (scan 0x41#8).memRead (scan 0x41#8).cfg.kbsrAddr = some (v, s1) ∧
        s1.holdsString ((scan 0x41#8).cfg.kbsrAddr + 1#16) [0x0043#16, 0x0041#16]) ∧
    (ScanReachesKbsr scanAtEnd [] 0x41#8 [] ∧ scanAtEnd.cfg.kbsrAddr = 0xFFFF#16) :=
  ⟨⟨by decide, holdsWords_two (by decide) (by decide) (by decide), by simp,
      show (0xFDFE#16).toNat + 2 = (0xFE00#16).toNat by decide, rfl⟩,
    ⟨⟨by decide, holdsWords_two (by decide) (by decide) (by decide), by simp,
      show (0xFDFE#16).toNat + 2 = (0xFE00#16).toNat by decide, rfl⟩, by decide,
      _, _, rfl, holdsWords_two (by decide) (by decide) (by decide), by simp, .inr (by decide)⟩,
    ⟨by decide, holdsWords_nil _ _, by simp, by decide, rfl⟩, by decide⟩

end Sys2Proof.Tests
end

namespace Sys2Proof.Machine

/-! Sign extension and the flags (10_state.md R27 to R29). -/

section SignExtension
variable {n : Nat} (v : BitVec n) (hn : n ≤ 16)
include hn

/-- R27: the value read as two's complement is kept. -/
theorem sext_toInt : (sext v).toInt = v.toInt := by
  rw [sext_eq_signExtend v hn, BitVec.toInt_signExtend_of_le hn]

/-- R27: the bits of the value are kept. -/
theorem sext_getLsbD_of_lt {k : Nat} (hk : k < n) : (sext v).getLsbD k = v.getLsbD k := by
  have hk16 : k < 16 := by omega
  rw [sext_eq_signExtend v hn, BitVec.getLsbD_signExtend, if_pos hk, decide_eq_true hk16, Bool.true_and]

/-- R27: every higher bit is the sign bit. -/
theorem sext_getLsbD_of_ge {k : Nat} (hk : n ≤ k) (hk16 : k < 16) :
    (sext v).getLsbD k = v.getLsbD (n - 1) := by
  rw [sext_eq_signExtend v hn, BitVec.getLsbD_signExtend, if_neg hk.not_gt, decide_eq_true hk16, Bool.true_and,
    BitVec.msb_eq_getLsbD_last]

end SignExtension

/-- R29: a 16-bit quantity is left as it is. -/
@[simp] theorem sext_word (v : Word) : sext v = v := by
  rw [sext_eq_signExtend v le_rfl, BitVec.signExtend_eq]

/-- Settles O7: R27's pseudocode is the library's `signExtend` (`sext_eq_signExtend`), whose value and bits are
known. -/
theorem signExtensionReplicatesTheSignBit : Obligations.SignExtensionReplicatesTheSignBit :=
  ⟨fun _ v _ hn =>
    ⟨sext_toInt v hn, fun _ hk => sext_getLsbD_of_lt v hn hk, fun _ hk hk16 => sext_getLsbD_of_ge v hn hk hk16⟩,
    sext_word⟩

theorem flagOf_of_toInt_eq_zero {v : Word} (h : v.toInt = 0) : flagOf v = .zero := by
  have hv : v = 0x0000#16 := BitVec.toInt_inj.mp h
  rw [hv, flagOf_zero]

theorem flagOf_of_toInt_neg {v : Word} (h : v.toInt < 0) : flagOf v = .negative :=
  flagOf_of_msb (by simpa [BitVec.msb_eq_toInt] using h)

theorem flagOf_of_toInt_pos {v : Word} (h : 0 < v.toInt) : flagOf v = .positive := by
  have hmsb : v.msb = false := by simpa [BitVec.msb_eq_toInt] using h.le
  have hv : v ≠ 0x0000#16 := by
    rintro rfl
    exact absurd h (by decide)
  exact flagOf_of_not_msb hmsb hv

/-- R28: COND is the bits of one flag and of no other. -/
theorem setcc_existsUnique_flag (s : State) (v : Word) : ∃! f : Flag, (s.setcc v).cond = f.bits :=
  ⟨flagOf v, State.setcc_cond s v, fun _ hf => Flag.bits_inj (hf.symm.trans (State.setcc_cond s v))⟩

theorem setcc_sameRegs (s : State) (v : Word) : SameRegs s (s.setcc v) := State.setcc_reg s v

theorem setcc_sameOutside (s : State) (v : Word) : SameOutside s (s.setcc v) := by
  simp [SameOutside, SameMemory, SameInput, SameControl]

/-- Settles O8: the flag by the three signs of the value, the different bits of the three flags, and the frame. -/
theorem setccSetsExactlyOneFlagBySign : Obligations.SetccSetsExactlyOneFlagBySign := by
  intro s v
  refine ⟨fun hzero => ?_, fun hneg => ?_, fun hpos => ?_, setcc_existsUnique_flag s v, setcc_sameRegs s v,
    State.setcc_pc s v, setcc_sameOutside s v⟩
  · rw [State.setcc_cond, flagOf_of_toInt_eq_zero hzero]
  · rw [State.setcc_cond, flagOf_of_toInt_neg hneg]
  · rw [State.setcc_cond, flagOf_of_toInt_pos hpos]

end Sys2Proof.Machine

namespace Sys2Proof.Machine

/-! The run state (40_fetch_decode.md R90, R95): HALT, RTI, RES and an unknown vector alone write it. -/

theorem memRead_run {s s1 : State} {a v : Word} (h : s.memRead a = some (v, s1)) : s1.run = s.run := by
  obtain ⟨-, -, -, -, hrun, -⟩ := memRead_frame h
  exact hrun

@[simp] theorem loadFrom_run (dr : Reg) (ea : Word) (s : State) : (loadFrom dr ea s).run = s.run := by
  cases h : s.memRead ea with
  | none => rw [loadFrom_of_block h, State.block_run]
  | some p => rw [loadFrom_of_read h, State.writeResult_run, memRead_run h]

@[simp] theorem loadIndirectFrom_run (dr : Reg) (ea : Word) (s : State) :
    (loadIndirectFrom dr ea s).run = s.run := by
  cases h : s.memRead ea with
  | none => rw [loadIndirectFrom_of_block h, State.block_run]
  | some p => rw [loadIndirectFrom_of_read h, loadFrom_run, memRead_run h]

@[simp] theorem storeIndirectFrom_run (sr : Reg) (ea : Word) (s : State) :
    (storeIndirectFrom sr ea s).run = s.run := by
  cases h : s.memRead ea with
  | none => rw [storeIndirectFrom_of_block h, State.block_run]
  | some p => rw [storeIndirectFrom_of_read h, State.memWrite_run, memRead_run h]

/-- The loops of PUTS and PUTSP. -/
theorem putsLoop_run (left : Nat) (a : Word) (s : State) :
    (putsLoop left a s).run = s.run ∧ (putspLoop left a s).run = s.run :=
  putsLoop_keeps (P := fun t => t.run = s.run) (fun _ _ h => h) (fun _ _ _ _ h e => (memRead_run e).trans h)
    (fun _ _ h => h) left a s rfl

/-- HALT is the one routine that ends the run. -/
theorem runRoutine_run {r : TrapRoutine} (hr : r ≠ .halt) (s : State) : (runRoutine r s).run = s.run :=
  runRoutine_keeps (P := fun t => t.run = s.run) (fun _ _ h => h) (fun _ _ _ _ h e => (memRead_run e).trans h)
    (fun _ _ h => h) (fun _ _ h => h) r (fun e => absurd e hr) (fun _ _ _ h => h) s rfl

/-- The run state in which a well-formed instruction leaves a core that was in `r` (`exec_run`). -/
def runAfter (r : RunState) : Instr → RunState
  | .trapHalt => .halted
  | .rti => .fatal .rtiOrRes
  | .res => .fatal .rtiOrRes
  | .trapOther _ => .fatal .unknownTrapVector
  | _ => r

theorem runAfter_running_eq_halted {i : Instr} (h : runAfter .running i = .halted) : i = .trapHalt := by
  cases i with
  | trapHalt => rfl
  | _ => cases h

theorem runAfter_running_eq_fatal {i : Instr} {c : FatalCode} (h : runAfter .running i = .fatal c) :
    (c.code = 10 ∧ (i = .rti ∨ i = .res)) ∨ (c.code = 21 ∧ ∃ v, i = .trapOther v) := by
  cases i with
  | rti => cases h; exact .inl ⟨rfl, .inl rfl⟩
  | res => cases h; exact .inl ⟨rfl, .inr rfl⟩
  | trapOther v => cases h; exact .inr ⟨rfl, v, rfl⟩
  | _ => cases h

/-- R90: the run state after an instruction, which a wait for input does not change. -/
theorem exec_run {i : Instr} {s t : State} (hwf : i.wf = true) (ht : exec i s = .next t) :
    t.run = runAfter s.run i := by
  cases i with
  | trap v => exact absurd hwf (by simp [Instr.wf, Instr.illFormed])
  | br nzp off =>
    cases ht
    split <;> rfl
  | trapGetc => cases ht; exact (runRoutine_run (r := .getc) (by decide) _).trans s.trapEnter_run
  | trapOut => cases ht; exact (runRoutine_run (r := .out) (by decide) _).trans s.trapEnter_run
  | trapPuts => cases ht; exact (runRoutine_run (r := .puts) (by decide) _).trans s.trapEnter_run
  | trapIn => cases ht; exact (runRoutine_run (r := .inChar) (by decide) _).trans s.trapEnter_run
  | trapPutsp => cases ht; exact (runRoutine_run (r := .putsp) (by decide) _).trans s.trapEnter_run
  | ld dr off => cases ht; exact loadFrom_run _ _ _
  | ldr dr baseR off => cases ht; exact loadFrom_run _ _ _
  | ldi dr off => cases ht; exact loadIndirectFrom_run _ _ _
  | sti sr off => cases ht; exact storeIndirectFrom_run _ _ _
  | _ => cases ht; rfl

/-- A cycle keeps the run state, unless the instruction it fetched writes it. -/
theorem cycle_run {s t : State} (ht : cycle s = .next t) :
    t.run = s.run ∨ ∃ I s1, s.memRead s.pc = some (I, s1) ∧ t.run = runAfter s.run (decode I) := by
  cases h : s.memRead s.pc with
  | none =>
    rw [cycle_of_block h] at ht
    cases ht
    exact .inl rfl
  | some p =>
    rw [cycle_of_read h] at ht
    refine .inr ⟨p.1, p.2, rfl, ?_⟩
    rw [exec_run (decode_wf p.1) ht, State.writePc_run, memRead_run h]

/-- What is left of a cycle that fetched before it waited: HALT never waits, so the run state stays. -/
theorem resume_run {w : Wait} {s t : State} (hw : w ≠ .fetch) (ht : resume w s = .next t) : t.run = s.run := by
  cases w with
  | fetch => exact absurd rfl hw
  | load dr ea => cases ht; exact loadFrom_run _ _ _
  | loadPointer dr ea => cases ht; exact loadIndirectFrom_run _ _ _
  | storePointer sr ea => cases ht; exact storeIndirectFrom_run _ _ _
  | character => cases ht; exact runRoutine_run (r := .getc) (by decide) s
  | puts a => cases ht; exact (putsLoop_run _ _ _).1
  | putsp a => cases ht; exact (putsLoop_run _ _ _).2

/-- The core is RUNNING after a step, unless the step fetched an instruction that writes the run state: a step that
fetches is a cycle, from the start or from the fetch it waited at. -/
theorem step_run {s t : State} (ht : step s = .next t) :
    t.run = .running ∨
    ∃ I s1, s.unblock.memRead s.pc = some (I, s1) ∧ t.run = runAfter .running (decode I) := by
  obtain ⟨hrun, hs⟩ := step_next_running ht
  have hcycle (hc : cycle s.unblock = .next t) := cycle_run hc
  rw [State.unblock_run, State.unblock_pc, hrun] at hcycle
  cases hw : s.waiting with
  | none =>
    rw [stepRunning_of_none hw] at hs
    exact hcycle (by rwa [State.unblock_of_none s hw])
  | some w =>
    rw [stepRunning_of_waiting hw] at hs
    by_cases hf : w = .fetch
    · subst hf
      exact hcycle hs
    · exact .inl ((resume_run hf hs).trans hrun)

/-- Settles O30: only a RUNNING core steps, and the run state a step leaves is RUNNING or the one the fetched
instruction writes. -/
theorem terminalStatesAndTheirOnlyCauses : Obligations.TerminalStatesAndTheirOnlyCauses := by
  refine ⟨fun s hs t ht => hs (step_next_running ht).1, fun s t ht hhalt => ?_, fun s t c ht hfatal => ?_⟩
  · obtain hrun | ⟨I, s1, hI, hrun⟩ := step_run ht
    · cases hrun.symm.trans hhalt
    · exact ⟨I, s1, hI, runAfter_running_eq_halted (hrun.symm.trans hhalt)⟩
  · obtain hrun | ⟨I, s1, hI, hrun⟩ := step_run ht
    · cases hrun.symm.trans hfatal
    · exact ⟨I, s1, hI, runAfter_running_eq_fatal (hrun.symm.trans hfatal)⟩

end Sys2Proof.Machine

namespace Sys2Proof.Machine

/-! The operate instructions (41_operate.md R110 to R114): each writes one result, which the common end of the
flag-setting instructions puts in DR. -/

@[simp] theorem exec_addReg (dr sr1 sr2 : Reg) (s : State) :
    exec (.addReg dr sr1 sr2) s = .next (s.writeResult dr (s.reg sr1 + s.reg sr2)) := rfl

@[simp] theorem exec_addImm (dr sr1 : Reg) (imm5 : BitVec 5) (s : State) :
    exec (.addImm dr sr1 imm5) s = .next (s.writeResult dr (s.reg sr1 + sext imm5)) := rfl

@[simp] theorem exec_andReg (dr sr1 sr2 : Reg) (s : State) :
    exec (.andReg dr sr1 sr2) s = .next (s.writeResult dr (s.reg sr1 &&& s.reg sr2)) := rfl

@[simp] theorem exec_andImm (dr sr1 : Reg) (imm5 : BitVec 5) (s : State) :
    exec (.andImm dr sr1 imm5) s = .next (s.writeResult dr (s.reg sr1 &&& sext imm5)) := rfl

@[simp] theorem exec_not (dr sr1 : Reg) (s : State) :
    exec (.not dr sr1) s = .next (s.writeResult dr (~~~ s.reg sr1)) := rfl

theorem writeResult_sameRegsBut (s : State) (dr : Reg) (v : Word) : SameRegsBut dr s (s.writeResult dr v) :=
  fun _ hr => State.writeResult_reg_of_ne s dr v hr

theorem writeResult_sameOutside (s : State) (dr : Reg) (v : Word) : SameOutside s (s.writeResult dr v) := by
  simp [SameOutside, SameMemory, SameInput, SameControl]

/-- R26, R28: a result sets COND from the new value of its register and leaves all but the two as it was. -/
theorem writeResult_flags_and_frame (s : State) (dr : Reg) (v : Word) :
    (s.writeResult dr v).cond = (flagOf ((s.writeResult dr v).reg dr)).bits ∧
    SameRegsBut dr s (s.writeResult dr v) ∧ (s.writeResult dr v).pc = s.pc ∧
    SameOutside s (s.writeResult dr v) := by
  refine ⟨?_, writeResult_sameRegsBut s dr v, State.writeResult_pc s dr v, writeResult_sameOutside s dr v⟩
  rw [State.writeResult_cond, State.writeResult_reg_same]

/-- R27: bit `k` of a sign-extended value is its own bit `k`, and its sign bit from there on. -/
theorem sext_getLsbD_min {n : Nat} (v : BitVec n) (hn : n ≤ 16) {k : Nat} (hk16 : k < 16) :
    (sext v).getLsbD k = v.getLsbD (min k (n - 1)) := by
  obtain hk | hk := Nat.lt_or_ge k n
  · rw [sext_getLsbD_of_lt v hn hk, min_eq_left (by omega)]
  · rw [sext_getLsbD_of_ge v hn hk hk16, min_eq_right (by omega)]

/-- Settles O13: the result is the sum of words, which is the sum of numbers modulo 2^16. -/
theorem addWritesTheSumAndSetsTheFlags : Obligations.AddWritesTheSumAndSetsTheFlags := by
  intro dr sr1 sr2 imm5 s
  refine ⟨⟨_, exec_addReg dr sr1 sr2 s, ?_, writeResult_flags_and_frame s dr _⟩,
    ⟨_, exec_addImm dr sr1 imm5 s, ?_, writeResult_flags_and_frame s dr _⟩⟩
  · rw [State.writeResult_reg_same, BitVec.toNat_add]
  · rw [State.writeResult_reg_same, add_toNat_of_toInt (sext_toInt imm5 (by decide))]

/-- Settles O14: the result is the and of words, whose bits are the ands of their bits. -/
theorem andWritesTheBitwiseAndAndSetsTheFlags : Obligations.AndWritesTheBitwiseAndAndSetsTheFlags := by
  intro dr sr1 sr2 imm5 s
  refine ⟨⟨_, exec_andReg dr sr1 sr2 s, fun k _ => ?_, writeResult_flags_and_frame s dr _⟩,
    ⟨_, exec_andImm dr sr1 imm5 s, fun k hk => ?_, writeResult_flags_and_frame s dr _⟩⟩
  · rw [State.writeResult_reg_same, BitVec.getLsbD_and]
  · rw [State.writeResult_reg_same, BitVec.getLsbD_and, sext_getLsbD_min imm5 (by decide) hk]

/-- Settles O15: 0xFFFF is the word of ones, from which a subtraction complements. -/
theorem notWritesTheComplementAndSetsTheFlags : Obligations.NotWritesTheComplementAndSetsTheFlags := by
  intro dr sr1 s
  refine ⟨_, exec_not dr sr1 s, ?_, writeResult_flags_and_frame s dr _⟩
  have hones : 0xFFFF#16 = BitVec.allOnes 16 := by decide
  rw [State.writeResult_reg_same, hones, BitVec.allOnes_sub_eq_not]

end Sys2Proof.Machine

namespace Sys2Proof.Machine

/-! Data movement (42_data_movement.md R130 to R136): a read keeps all but memory and the input channel, and then one
result or one stored word follows. -/

/-- All but memory and the input channel is the same in both states: the frame of a read and of a store. -/
structure SameButMemoryAndInput (s t : State) : Prop where
  regs : SameRegs s t
  cond : t.cond = s.cond
  pc : t.pc = s.pc
  output : t.output = s.output
  control : SameControl s t

theorem SameButMemoryAndInput.refl (s : State) : SameButMemoryAndInput s s :=
  ⟨fun _ => rfl, rfl, rfl, rfl, rfl, rfl, rfl⟩

theorem SameButMemoryAndInput.trans {s t u : State} (h : SameButMemoryAndInput s t)
    (k : SameButMemoryAndInput t u) : SameButMemoryAndInput s u := by
  obtain ⟨hcfg, hrun, hwaiting⟩ := h.control
  obtain ⟨kcfg, krun, kwaiting⟩ := k.control
  exact ⟨fun r => (k.regs r).trans (h.regs r), k.cond.trans h.cond, k.pc.trans h.pc, k.output.trans h.output,
    kcfg.trans hcfg, krun.trans hrun, kwaiting.trans hwaiting⟩

theorem memRead_sameButMemoryAndInput {s s1 : State} {a v : Word} (h : s.memRead a = some (v, s1)) :
    SameButMemoryAndInput s s1 := by
  obtain ⟨hcfg, hregs, hpc, hcond, hrun, hwaiting, houtput, -⟩ := memRead_frame h
  exact ⟨fun r => congrArg (·.get r) hregs, hcond, hpc, houtput, hcfg, hrun, hwaiting⟩

theorem memWrite_sameButMemoryAndInput (s : State) (a v : Word) : SameButMemoryAndInput s (s.memWrite a v) :=
  ⟨State.memWrite_reg s a v, rfl, rfl, rfl, rfl, rfl, rfl⟩

/-- R130: a load from `s` ends with its result, in the state `s1` its reads left. -/
theorem writeResult_after_reads {s s1 : State} (h : SameButMemoryAndInput s s1) (dr : Reg) (v : Word) :
    (s1.writeResult dr v).reg dr = v ∧ (s1.writeResult dr v).cond = (flagOf v).bits ∧
    SameRegsBut dr s (s1.writeResult dr v) ∧ (s1.writeResult dr v).pc = s.pc ∧
    (s1.writeResult dr v).output = s.output ∧ SameControl s (s1.writeResult dr v) ∧
    SameMemory s1 (s1.writeResult dr v) ∧ SameInput s1 (s1.writeResult dr v) := by
  obtain ⟨hmem, hinput, -, -⟩ := writeResult_sameOutside s1 dr v
  exact ⟨State.writeResult_reg_same s1 dr v, State.writeResult_cond s1 dr v,
    fun r hr => (writeResult_sameRegsBut s1 dr v r hr).trans (h.regs r), h.pc, h.output, h.control, hmem, hinput⟩

/-- R131, R46: a store of `s` ends with one word written, in the state `s1` its reads left. -/
theorem memWrite_after_reads {s s1 : State} (h : SameButMemoryAndInput s s1) (a : Word) {v w : Word} (hv : v = w) :
    (s1.memWrite a v).mem.read a = w ∧ (∀ b, b ≠ a → (s1.memWrite a v).mem.read b = s1.mem.read b) ∧
    SameRegs s (s1.memWrite a v) ∧ (s1.memWrite a v).cond = s.cond ∧ (s1.memWrite a v).pc = s.pc ∧
    SameInput s1 (s1.memWrite a v) ∧ (s1.memWrite a v).output = s.output ∧ SameControl s (s1.memWrite a v) := by
  obtain ⟨hregs, hcond, hpc, houtput, hcontrol⟩ := h.trans (memWrite_sameButMemoryAndInput s1 a v)
  exact ⟨(Memory.read_write_same s1.mem a v).trans hv, fun b hb => Memory.read_write_of_ne s1.mem hb v,
    hregs, hcond, hpc, ⟨rfl, rfl⟩, houtput, hcontrol⟩

section Reads
variable {s s1 : State} {v : Word}

theorem exec_ld_of_read (dr : Reg) {off : BitVec 9} (h : s.memRead (s.pcRel9 off) = some (v, s1)) :
    exec (.ld dr off) s = .next (s1.writeResult dr v) :=
  congrArg Host.Outcome.next (loadFrom_of_read h)

theorem exec_ldr_of_read (dr : Reg) {baseR : Reg} {off : BitVec 6}
    (h : s.memRead (s.baseRel baseR off) = some (v, s1)) :
    exec (.ldr dr baseR off) s = .next (s1.writeResult dr v) :=
  congrArg Host.Outcome.next (loadFrom_of_read h)

theorem exec_ldi_of_reads (dr : Reg) {off : BitVec 9} {p : Word} {s2 : State}
    (hp : s.memRead (s.pcRel9 off) = some (p, s1)) (hv : s1.memRead p = some (v, s2)) :
    exec (.ldi dr off) s = .next (s2.writeResult dr v) :=
  congrArg Host.Outcome.next ((loadIndirectFrom_of_read hp).trans (loadFrom_of_read hv))

theorem exec_sti_of_read (sr : Reg) {off : BitVec 9} {p : Word} (h : s.memRead (s.pcRel9 off) = some (p, s1)) :
    exec (.sti sr off) s = .next (s1.memWrite p (s1.reg sr)) :=
  congrArg Host.Outcome.next (storeIndirectFrom_of_read h)

end Reads

@[simp] theorem exec_st (sr : Reg) (off : BitVec 9) (s : State) :
    exec (.st sr off) s = .next (s.memWrite (s.pcRel9 off) (s.reg sr)) := rfl

@[simp] theorem exec_str (sr baseR : Reg) (off : BitVec 6) (s : State) :
    exec (.str sr baseR off) s = .next (s.memWrite (s.baseRel baseR off) (s.reg sr)) := rfl

@[simp] theorem exec_lea (dr : Reg) (off : BitVec 9) (s : State) :
    exec (.lea dr off) s = .next (s.writeResult dr (s.pcRel9 off)) := rfl

/-- Settles O16: both load the word of one read, which keeps all but memory and the input channel. -/
theorem ldAndLdrLoadTheWordTheyRead : Obligations.LdAndLdrLoadTheWordTheyRead := by
  intro dr baseR o9 o6 s v s1
  refine ⟨fun hld => ⟨_, exec_ld_of_read dr hld, ?_⟩, fun hldr => ⟨_, exec_ldr_of_read dr hldr, ?_⟩⟩
  · exact writeResult_after_reads (memRead_sameButMemoryAndInput hld) dr v
  · exact writeResult_after_reads (memRead_sameButMemoryAndInput hldr) dr v

/-- Settles O18: the two reads in order keep what each of them keeps. -/
theorem ldiLoadsThroughThePointer : Obligations.LdiLoadsThroughThePointer := by
  intro dr o9 s p s1 v s2 hp hv
  have hreads : SameButMemoryAndInput s s2 :=
    (memRead_sameButMemoryAndInput hp).trans (memRead_sameButMemoryAndInput hv)
  exact ⟨_, exec_ldi_of_reads dr hp hv, writeResult_after_reads hreads dr v⟩

/-- Settles O19: a store with no read before it. -/
theorem stAndStrStoreOneWord : Obligations.StAndStrStoreOneWord := by
  intro sr baseR o9 o6 s
  exact ⟨⟨_, exec_st sr o9 s, memWrite_after_reads (.refl s) _ rfl⟩,
    ⟨_, exec_str sr baseR o6 s, memWrite_after_reads (.refl s) _ rfl⟩⟩

/-- Settles O20: the pointer read keeps SR, so the word stored after it is the one SR held before. -/
theorem stiStoresThroughThePointer : Obligations.StiStoresThroughThePointer := by
  intro sr o9 s p s1 hp
  have hread : SameButMemoryAndInput s s1 := memRead_sameButMemoryAndInput hp
  exact ⟨_, exec_sti_of_read sr hp, memWrite_after_reads hread p (hread.regs sr)⟩

/-- Settles O21: the address is the sum of the pc and the sign-extended offset, modulo 2^16. -/
theorem leaWritesTheAddressAndSetsTheFlags : Obligations.LeaWritesTheAddressAndSetsTheFlags := by
  intro dr o9 s
  refine ⟨_, exec_lea dr o9 s, ?_, writeResult_flags_and_frame s dr _⟩
  rw [State.writeResult_reg_same, State.pcRel9, add_toNat_of_toInt (sext_toInt o9 (by decide))]

end Sys2Proof.Machine

namespace Sys2Proof.Machine

/-! Control transfer (43_control.md R150 to R155): a jump writes the pc, with the return address in R7 before it when
it is a call, and a fatal stop writes the run state alone. -/

/-- R76: the address a branch goes to, as a sum modulo 2^16. -/
theorem pcRel9_toNat (s : State) (off : BitVec 9) :
    ((s.pcRel9 off).toNat : Int) = ((s.pc.toNat : Int) + off.toInt) % 65536 :=
  add_toNat_of_toInt (sext_toInt off (by decide))

/-- R76: the address a JSR goes to, as a sum modulo 2^16. -/
theorem pcRel11_toNat (s : State) (off : BitVec 11) :
    ((s.pcRel11 off).toNat : Int) = ((s.pc.toNat : Int) + off.toInt) % 65536 :=
  add_toNat_of_toInt (sext_toInt off (by decide))

theorem sameOutside_refl (s : State) : SameOutside s s :=
  ⟨fun _ => rfl, ⟨rfl, rfl⟩, rfl, rfl, rfl, rfl⟩

/-- R150, R151: a jump leaves all but the pc as it was. -/
theorem writePc_frame (s : State) (v : Word) :
    SameRegs s (s.writePc v) ∧ (s.writePc v).cond = s.cond ∧ SameOutside s (s.writePc v) :=
  ⟨State.writePc_reg s v, rfl, fun _ => rfl, ⟨rfl, rfl⟩, rfl, rfl, rfl, rfl⟩

/-- R152, R153: a call leaves all but R7 and the pc as it was. -/
theorem link_writePc_frame (s : State) (v : Word) :
    SameRegsBut .r7 s (s.link.writePc v) ∧ (s.link.writePc v).cond = s.cond ∧ SameOutside s (s.link.writePc v) :=
  ⟨fun _ hr => State.link_reg_of_ne s hr, rfl, fun _ => rfl, ⟨rfl, rfl⟩, rfl, rfl, rfl, rfl⟩

/-- R200: a fatal stop leaves all but the run state as it was. -/
theorem raiseFatal_frame (s : State) (c : FatalCode) :
    SameRegs s (s.raiseFatal c) ∧ (s.raiseFatal c).pc = s.pc ∧ (s.raiseFatal c).cond = s.cond ∧
    SameMemory s (s.raiseFatal c) ∧ SameInput s (s.raiseFatal c) ∧ (s.raiseFatal c).output = s.output ∧
    (s.raiseFatal c).cfg = s.cfg ∧ (s.raiseFatal c).waiting = s.waiting :=
  ⟨State.raiseFatal_reg s c, rfl, rfl, fun _ => rfl, ⟨rfl, rfl⟩, rfl, rfl, rfl⟩

theorem exec_br_of_taken {nzp : BitVec 3} {s : State} (h : s.branchTaken nzp = true) (off : BitVec 9) :
    exec (.br nzp off) s = .next (s.writePc (s.pcRel9 off)) :=
  congrArg Host.Outcome.next (if_pos h)

theorem exec_br_of_not_taken {nzp : BitVec 3} {s : State} (h : ¬ s.branchTaken nzp = true) (off : BitVec 9) :
    exec (.br nzp off) s = .next s :=
  congrArg Host.Outcome.next (if_neg h)

@[simp] theorem exec_jmp (baseR : Reg) (s : State) : exec (.jmp baseR) s = .next (s.writePc (s.reg baseR)) := rfl

@[simp] theorem exec_jsr (off : BitVec 11) (s : State) :
    exec (.jsr off) s = .next (s.link.writePc (s.link.pcRel11 off)) := rfl

@[simp] theorem exec_rti (s : State) : exec .rti s = .next (s.raiseFatal .rtiOrRes) := rfl

@[simp] theorem exec_res (s : State) : exec .res s = .next (s.raiseFatal .rtiOrRes) := rfl

/-- Settles O22: a branch that meets a flag writes the pc, and one that meets none leaves the state as it was. -/
theorem brBranchesExactlyOnAMatchingFlag : Obligations.BrBranchesExactlyOnAMatchingFlag := by
  intro nzp o9 s
  by_cases htaken : s.branchTaken nzp = true
  · refine ⟨_, exec_br_of_taken htaken o9, fun _ => pcRel9_toNat s o9, fun hnone => ?_, writePc_frame s _⟩
    obtain ⟨k, hk, hnzp, hcond⟩ := (branchTaken_iff s nzp).mp htaken
    exact absurd hcond (by simp [hnone k hk hnzp])
  · exact ⟨s, exec_br_of_not_taken htaken o9, fun hmeet => absurd ((branchTaken_iff s nzp).mpr hmeet) htaken,
      fun _ => rfl, fun _ => rfl, rfl, sameOutside_refl s⟩

/-- Settles O24: a jump writes the pc alone. -/
theorem jmpContinuesAtTheBaseRegister : Obligations.JmpContinuesAtTheBaseRegister := by
  intro baseR s
  exact ⟨_, exec_jmp baseR s, State.writePc_pc s _, writePc_frame s _⟩

/-- Settles O25: the link writes R7 and keeps the pc, which the jump then adds its offset to. -/
theorem jsrLinksAndJumpsRelative : Obligations.JsrLinksAndJumpsRelative := by
  intro o11 s
  refine ⟨_, exec_jsr o11 s, ?_, ?_, link_writePc_frame s _⟩
  · rw [State.writePc_reg, State.link_reg_same]
  · rw [State.writePc_pc, pcRel11_toNat, State.link_pc]

/-- Settles O28: both take the stop whose code is 10, and a fatal stop writes the run state alone. -/
theorem rtiAndResStopWithCode10 : Obligations.RtiAndResStopWithCode10 := by
  intro i s hi
  have hstop : exec i s = .next (s.raiseFatal .rtiOrRes) := by
    obtain rfl | rfl := hi
    · exact exec_rti s
    · exact exec_res s
  exact ⟨_, .rtiOrRes, hstop, State.raiseFatal_run s _, rfl, rfl, raiseFatal_frame s _⟩

end Sys2Proof.Machine

namespace Sys2Proof

/-! Decoding and encoding (30_encoding.md sections 2 to 4): a word's form is known from its fields, and its fields are
the bits that are used. -/

/-- Every word of the TRAP opcode has the row of its vector. -/
theorem decode_encodeTRAPF (v : BitVec 8) : decode (encodeTRAPF .trap v) = trapRow v := by
  simp [decode, decodeForm, opcodeOf, Instr.canonical]

/-- Decoding the word of any instruction gives the well-formed instruction that names the same words. -/
theorem decode_encode (i : Instr) : decode (encode i) = i.canonical := by
  cases i with
  | trap v => exact decode_encodeTRAPF v
  | trapOther v => exact decode_encodeTRAPF v
  | trapGetc => exact decode_encodeTRAPF 0x20#8
  | trapOut => exact decode_encodeTRAPF 0x21#8
  | trapPuts => exact decode_encodeTRAPF 0x22#8
  | trapIn => exact decode_encodeTRAPF 0x23#8
  | trapPutsp => exact decode_encodeTRAPF 0x24#8
  | trapHalt => exact decode_encodeTRAPF 0x25#8
  | _ => simp [decode, decodeForm, opcodeOf, fieldDR, fieldSR1, fieldSR2, encode, Instr.canonical]

/-- Settles O4: a well-formed instruction is its own canonical one. -/
theorem decodeOfEncodeIsTheInstruction : Obligations.DecodeOfEncodeIsTheInstruction := by
  intro i hwf
  rw [decode_encode, Instr.canonical_of_wf i hwf]

theorem encode_canonical (i : Instr) : encode i.canonical = encode i := by
  cases i with
  | trap v => exact encode_trapRow v
  | trapOther v => exact encode_trapRow v
  | _ => rfl

/-- The fields of the formats of R72, as pairs of the lowest bit and the width: the opcode and then the operands. -/
def usedFields : Instr → List (Nat × Nat)
  | .addReg _ _ _ | .andReg _ _ _ => [(12, 4), (9, 3), (6, 3), (5, 1), (0, 3)]
  | .addImm _ _ _ | .andImm _ _ _ => [(12, 4), (9, 3), (6, 3), (5, 1), (0, 5)]
  | .not _ _ => [(12, 4), (9, 3), (6, 3)]
  | .ld _ _ | .st _ _ | .ldi _ _ | .sti _ _ | .lea _ _ | .br _ _ => [(12, 4), (9, 3), (0, 9)]
  | .ldr _ _ _ | .str _ _ _ => [(12, 4), (9, 3), (6, 3), (0, 6)]
  | .jmp _ => [(12, 4), (6, 3)]
  | .jsr _ => [(12, 4), (11, 1), (0, 11)]
  | .jsrr _ => [(12, 4), (11, 1), (6, 3)]
  | .rti | .res => [(12, 4)]
  | _ => [(12, 4), (0, 8)]

/-- The mask of R71 has no bit outside the fields. -/
theorem exists_usedField (i : Instr) :
    ∀ k < 16, (usedMask i).getLsbD k = true → ∃ f ∈ usedFields i, f.1 ≤ k ∧ k < f.1 + f.2 := by
  cases i <;> simp only [usedMask, usedFields] <;> decide

/-- The mask of R71 has every bit of the fields. -/
theorem bits_usedMask (i : Instr) :
    ∀ f ∈ usedFields i, bits (usedMask i) f.1 f.2 = BitVec.allOnes f.2 := by
  cases i <;> simp only [usedMask, usedFields] <;> decide

/-- Two words with the same value in every field of a form agree in the bits that the form uses. -/
theorem and_usedMask_of_bits {I J : Word} (i : Instr)
    (h : ∀ f ∈ usedFields i, bits I f.1 f.2 = bits J f.1 f.2) : I &&& usedMask i = J &&& usedMask i := by
  apply BitVec.eq_of_getLsbD_eq
  intro k hk
  rw [BitVec.getLsbD_and, BitVec.getLsbD_and]
  cases hm : (usedMask i).getLsbD k with
  | false => rw [Bool.and_false, Bool.and_false]
  | true =>
    obtain ⟨f, hf, hlo, hhi⟩ := exists_usedField i k hk hm
    have hbit := congrArg (·.getLsbD (k - f.1)) (h f hf)
    have hin : k - f.1 < f.2 := by omega
    simpa [bits, hin, Nat.add_sub_cancel' hlo] using hbit

/-- Encoding the form of a word puts each field back in its place. -/
theorem bits_encode_decodeForm (I : Word) :
    ∀ f ∈ usedFields (decodeForm I), bits (encode (decodeForm I)) f.1 f.2 = bits I f.1 f.2 := by
  have hop := field_opcodeOf I
  unfold decodeForm
  cases h : opcodeOf I with
  | add | and =>
    rw [h] at hop
    by_cases h5 : bits I 5 1 = 0#1
    · simp [usedFields, encode, fieldDR, fieldSR1, fieldSR2, h5, hop]
    · have h1 : bits I 5 1 = 1#1 := by bv_omega
      simp [usedFields, encode, fieldDR, fieldSR1, h1, hop]
  | jsr =>
    rw [h] at hop
    by_cases h1 : bits I 11 1 = 1#1
    · simp [usedFields, encode, h1, hop]
    · have h0 : bits I 11 1 = 0#1 := by bv_omega
      simp [usedFields, encode, fieldSR1, h0, hop]
  | _ =>
    rw [h] at hop
    simp [usedFields, encode, fieldDR, fieldSR1, hop]

/-- Settles O5: the canonical instruction has the word of the form, which puts each used field back. -/
theorem encodeOfDecodeKeepsTheUsedBits : Obligations.EncodeOfDecodeKeepsTheUsedBits := by
  intro I
  rw [decode, encode_canonical]
  exact and_usedMask_of_bits (decodeForm I) (bits_encode_decodeForm I)

theorem opcode_mem_usedFields (i : Instr) : (12, 4) ∈ usedFields i := by
  cases i <;> simp [usedFields]

/-- The form of a word depends on its used fields alone. -/
theorem decodeForm_congr {I J : Word} (h : ∀ f ∈ usedFields (decodeForm I), bits J f.1 f.2 = bits I f.1 f.2) :
    decodeForm J = decodeForm I := by
  have hop : opcodeOf J = opcodeOf I := congrArg Opcode.ofField (h _ (opcode_mem_usedFields _))
  unfold decodeForm at h ⊢
  rw [hop]
  cases ho : opcodeOf I with
  | add | and =>
    rw [ho] at h
    by_cases h5 : bits I 5 1 = 0#1
    · simp [usedFields, h5] at h
      simp [fieldDR, fieldSR1, fieldSR2, h5, h]
    · simp [usedFields, h5] at h
      simp [fieldDR, fieldSR1, h5, h]
  | jsr =>
    rw [ho] at h
    by_cases h1 : bits I 11 1 = 1#1
    · simp [usedFields, h1] at h
      simp [h1, h]
    · simp [usedFields, h1] at h
      simp [fieldSR1, h1, h]
  | rti | res => rfl
  | _ =>
    rw [ho] at h
    simp [usedFields] at h
    simp [fieldDR, fieldSR1, h]

/-- Settles O6: the mask covers the used fields, on which the form depends. -/
theorem unusedBitsDoNotMatter : Obligations.UnusedBitsDoNotMatter := by
  intro I J h
  have hform : decodeForm J = decodeForm I :=
    decodeForm_congr fun f hf => bits_of_mask h (bits_usedMask (decodeForm I) f hf)
  rw [decode, decode, hform]

end Sys2Proof

namespace Sys2Proof.Machine

/-! The shared operations: addresses, memory and its canonical form, the read path (10_state.md, 20_memory.md). -/

/-- R137: the address of LDR and STR, as a sum modulo 2^16. -/
theorem baseRel_toNat (s : State) (baseR : Reg) (off : BitVec 6) :
    ((s.baseRel baseR off).toNat : Int) = (((s.reg baseR).toNat : Int) + off.toInt) % 65536 :=
  add_toNat_of_toInt (sext_toInt off (by decide))

/-- Settles O9: each address is a base plus a sign-extended offset. -/
theorem effectiveAddressesWrapModulo65536 : Obligations.EffectiveAddressesWrapModulo65536 :=
  fun s o9 o11 o6 baseR => ⟨pcRel9_toNat s o9, pcRel11_toNat s o11, baseRel_toNat s baseR o6⟩

theorem kbdrAddr_ne_kbsrAddr {c : Config} (h : c.wf = true) : c.kbdrAddr ≠ c.kbsrAddr := by
  intro heq
  simp [Config.wf, heq] at h

/-- The word that a read of `KBSR_ADDR` answers, and the state it leaves. -/
theorem memRead_kbsr_word {s : State} {b : Byte} {rest : List Byte} (hwf : s.cfg.wf = true)
    (hi : s.input = b :: rest) :
    s.memRead s.cfg.kbsrAddr =
      some (if b = 0#8 then 0x0000#16 else 0x8000#16, (s.advanceInput rest).refresh b) := by
  have hkbsr := refresh_read_kbsr (s.advanceInput rest) b hwf
  rw [State.advanceInput_cfg] at hkbsr
  rw [memRead_kbsr hi, hkbsr]

/-- Settles O10: the plain read, the read that blocks, and the refresh by a byte. -/
theorem onlyAReadOfKbsrRefreshesTheKeyboard : Obligations.OnlyAReadOfKbsrRefreshesTheKeyboard := by
  intro s
  refine ⟨fun a ha => memRead_of_ne ha, fun hi => memRead_none.mpr ⟨rfl, hi⟩, fun b rest hwf hi => ?_⟩
  have hkbsr := refresh_read_kbsr (s.advanceInput rest) b hwf
  have hkbdr := refresh_read_kbdr (s.advanceInput rest) b hwf
  rw [State.advanceInput_cfg] at hkbsr hkbdr
  refine ⟨_, _, memRead_kbsr_word hwf hi, fun hb => ⟨if_neg hb, ?_⟩, fun hb => ⟨if_pos hb, ?_⟩, hkbsr,
    fun a h1 h2 => refresh_read_of_ne _ b h1 h2, ?_⟩
  · rw [hkbdr, if_neg hb, zext8_toNat]
  · rw [hkbdr, if_pos hb, State.advanceInput_mem]
  · simp [SameRegs, SameControl]

theorem zext8_ne_zero {b : Byte} (h : b ≠ 0#8) : zext8 b ≠ 0x0000#16 := by
  intro hzero
  have hnat := congrArg BitVec.toNat hzero
  rw [zext8_toNat] at hnat
  exact h (BitVec.eq_of_toNat_eq hnat)

/-- A read of `KBSR_ADDR` that completes answers one of two words, whatever was stored there, and KBDR is then the byte
or what it was. -/
theorem memRead_kbsr_cases {s s1 : State} {v : Word} (hwf : s.cfg.wf = true)
    (h : s.memRead s.cfg.kbsrAddr = some (v, s1)) :
    (v = 0x8000#16 ∧ s1.mem.read s.cfg.kbdrAddr ≠ 0x0000#16) ∨
    (v = 0x0000#16 ∧ s1.mem.read s.cfg.kbdrAddr = s.mem.read s.cfg.kbdrAddr) := by
  obtain ⟨hplain, -⟩ | ⟨-, b, rest, hi, -⟩ := memRead_some h
  · exact absurd rfl hplain
  · obtain ⟨rfl, rfl⟩ := Prod.mk.inj (Option.some.inj ((memRead_kbsr_word hwf hi).symm.trans h))
    have hkbdr := refresh_read_kbdr (s.advanceInput rest) b hwf
    rw [State.advanceInput_cfg, State.advanceInput_mem] at hkbdr
    by_cases hb : b = 0#8
    · exact .inr ⟨if_pos hb, hkbdr.trans (if_pos hb)⟩
    · refine .inl ⟨if_neg hb, ?_⟩
      rw [hkbdr, if_neg hb]
      exact zext8_ne_zero hb

/-- Settles O11: a read of KBSR answers what its refresh wrote, and a store to KBDR is memory. -/
theorem kbsrNeverReadsAStoredWord : Obligations.KbsrNeverReadsAStoredWord := by
  intro s x y hwf
  refine ⟨?_, fun v s1 hread => ?_⟩
  · have hplain := memRead_of_ne (s := s.memWrite s.cfg.kbdrAddr y) (kbdrAddr_ne_kbsrAddr hwf)
    rwa [State.memWrite_cfg, State.memWrite_mem, Memory.read_write_same] at hplain
  · have h := memRead_kbsr_cases (s := (s.memWrite s.cfg.kbsrAddr x).memWrite s.cfg.kbdrAddr y) hwf hread
    simpa only [State.memWrite_cfg, State.memWrite_mem, Memory.read_write_same] using h

/-- Every key of a byte of memory is the low or the high key of a word. -/
theorem exists_word_of_key {k : Nat} (hk : k < numKeys) :
    ∃ a : Word, k = 2 * a.toNat ∨ k = 2 * a.toNat + 1 := by
  unfold numKeys at hk
  refine ⟨BitVec.ofNat 16 (k / 2), ?_⟩
  rw [BitVec.toNat_ofNat, Nat.mod_eq_of_lt (by omega)]
  omega

/-- Settles O12: the words are the bytes under the keys of words, and a canonical list has no byte elsewhere. -/
theorem equalWordsMeanEqualMemories : Obligations.EqualWordsMeanEqualMemories := by
  intro m n hm hn hread
  have hcells : m.cells = n.cells := by
    refine cells_ext 0 m.cells n.cells hm hn fun k => ?_
    obtain hk | hk := Nat.lt_or_ge k numKeys
    · obtain ⟨a, rfl | rfl⟩ := exists_word_of_key hk
      · rw [Memory.byteAt_low, Memory.byteAt_low, hread]
      · rw [Memory.byteAt_high, Memory.byteAt_high, hread]
    · rw [byteAt_of_ge _ hm hk, byteAt_of_ge _ hn hk]
  cases m
  cases n
  exact congrArg Memory.mk hcells

/-- Settles O17: reads of plain memory leave the state as it was, and then one result follows. -/
theorem loadsOfPlainMemoryOnlyWriteTheirRegister : Obligations.LoadsOfPlainMemoryOnlyWriteTheirRegister := by
  intro dr baseR o9 o6 s
  refine ⟨fun hea => ⟨_, exec_ld_of_read dr (memRead_of_ne hea), ?_⟩,
    fun hea => ⟨_, exec_ldr_of_read dr (memRead_of_ne hea), ?_⟩,
    fun hea hp => ⟨_, exec_ldi_of_reads dr (memRead_of_ne hea) (memRead_of_ne hp), ?_⟩⟩
  all_goals exact ⟨State.writeResult_reg_same s dr _, writeResult_flags_and_frame s dr _⟩

/-! Reset (10_state.md section 8). -/

/-- Settles O1: reset by its definition, and zeroed memory reads zero. -/
theorem resetLeavesTheSpecifiedState : Obligations.ResetLeavesTheSpecifiedState :=
  ⟨fun _ _ _ => ⟨RegFile.get_zero, rfl, rfl, fun _ => rfl, rfl, rfl, rfl, rfl, rfl⟩, rfl, Memory.read_zero⟩

theorem resetWith_inv {cfg : Config} {m : Memory} (input : List Byte) (hcfg : cfg.wf = true) (hm : m.wf = true) :
    State.Inv (State.resetWith cfg m input) :=
  ⟨hcfg, hm, rfl, rfl, rfl⟩

/-- Settles O2: the default parameters and zeroed memory are legal ones. -/
theorem resetMeetsTheInvariant : Obligations.ResetMeetsTheInvariant :=
  ⟨resetWith_inv [] (by decide) Memory.wf_zero, fun _ _ input hcfg hm => resetWith_inv input hcfg hm⟩

/-- Settles O3: the nineteen words, each decoded by evaluation. -/
theorem sampleWordsDecodeAsWrittenOut : Obligations.SampleWordsDecodeAsWrittenOut := by
  unfold Obligations.SampleWordsDecodeAsWrittenOut
  decide

/-! Branches, calls and returns (43_control.md). -/

/-- Settles O23: neither operand of BR's test has a bit to meet. -/
theorem noBranchBeforeTheFirstFlag : Obligations.NoBranchBeforeTheFirstFlag := by
  intro nzp o9 s hnone
  refine exec_br_of_not_taken (fun htaken => ?_) o9
  obtain ⟨k, -, hnzp, hcond⟩ := (branchTaken_iff s nzp).mp htaken
  obtain h | h := hnone
  · simp [h] at hcond
  · simp [h] at hnzp

@[simp] theorem exec_jsrr (baseR : Reg) (s : State) :
    exec (.jsrr baseR) s = .next (s.link.writePc (s.link.reg baseR)) := rfl

/-- Settles O26: the base is read from the state that the link left. -/
theorem jsrrLinksBeforeItReadsTheBase : Obligations.JsrrLinksBeforeItReadsTheBase := by
  intro baseR s
  refine ⟨_, exec_jsrr baseR s, State.link_reg_same s, fun hbase => ?_, fun hbase => ?_, link_writePc_frame s _⟩
  · exact State.link_reg_of_ne s hbase
  · rw [hbase]
    exact State.link_reg_same s

/-- Settles O27: a call leaves its return address in R7, to which RET jumps. -/
theorem retReturnsToTheAddressAfterTheCall : Obligations.RetReturnsToTheAddressAfterTheCall := by
  intro i s t u hcall ht hr7
  have hlink : t.reg .r7 = s.pc := by
    obtain ⟨o11, rfl⟩ | ⟨baseR, rfl⟩ := hcall
    · cases ht
      exact State.link_reg_same s
    · cases ht
      exact State.link_reg_same s
  exact ⟨_, exec_jmp .r7 u, hr7.trans hlink, writePc_frame u _⟩

end Sys2Proof.Machine

namespace Sys2Proof.Machine

/-! The TRAP rows (44_trap.md): each runs its routine after TRAP's first line. -/

@[simp] theorem exec_trapGetc (s : State) : exec .trapGetc s = .next (readCharacter s.trapEnter) := rfl

@[simp] theorem exec_trapOut (s : State) : exec .trapOut s = .next (routineOut s.trapEnter) := rfl

@[simp] theorem exec_trapPuts (s : State) : exec .trapPuts s = .next (putsFrom (s.trapEnter.reg .r0) s.trapEnter) := rfl

@[simp] theorem exec_trapIn (s : State) :
    exec .trapIn s = .next (readCharacter (s.trapEnter.outBytes s.trapEnter.cfg.inPrompt)) := rfl

@[simp] theorem exec_trapPutsp (s : State) :
    exec .trapPutsp s = .next (putspFrom (s.trapEnter.reg .r0) s.trapEnter) := rfl

@[simp] theorem exec_trapHalt (s : State) : exec .trapHalt s = .next (routineHalt s.trapEnter) := rfl

@[simp] theorem exec_trapOther (v : BitVec 8) (s : State) :
    exec (.trapOther v) s = .next (s.trapEnter.raiseFatal .unknownTrapVector) := rfl

/-- R170: the dispatcher and the table select the same routine. -/
theorem exec_trap (v : BitVec 8) (s : State) : exec (.trap v) s = exec (trapRow v) s := by
  simp only [exec, execTrap, trapRow]
  rcases TrapRoutine.ofVector v with _ | ⟨_ | _ | _ | _ | _ | _⟩ <;> rfl

theorem trapRow_of_outside {v : BitVec 8} (h : v.toNat < 0x20 ∨ 0x25 < v.toNat) : trapRow v = .trapOther v := by
  refine trapRow_unknown v fun hv => ?_
  simp only [BitVec.le_def, BitVec.toNat_ofNat] at hv
  omega

theorem trapEnter_sameRegsAfterTrapEnter (s : State) : SameRegsAfterTrapEnter s s.trapEnter := State.trapEnter_reg s

/-- Settles O29: the row of such a vector is TRAP_other, which stops after TRAP's first line. -/
theorem unknownTrapVectorsStopWithCode21 : Obligations.UnknownTrapVectorsStopWithCode21 := by
  intro v s hv
  have htrap : exec (.trap v) s = .next (s.trapEnter.raiseFatal .unknownTrapVector) := by
    rw [exec_trap, trapRow_of_outside hv, exec_trapOther]
  refine ⟨_, .unknownTrapVector, exec_trapOther v s, htrap, rfl, rfl, rfl, trapEnter_sameRegsAfterTrapEnter s, ?_⟩
  simp [SameMemory, SameInput]

/-- Settles O31: the dispatcher is the row of its vector, and so is the canonical form of a TRAP word. -/
theorem trapDoesWhatTheRowOfItsVectorDoes : Obligations.TrapDoesWhatTheRowOfItsVectorDoes := by
  intro v s
  obtain ⟨t, ht⟩ := exec_isNext (.trap v) s
  refine ⟨⟨t, ht, by rw [← exec_trap, ht]⟩, ?_, ?_, ?_, ?_, ?_, ?_, trapRow_of_outside, fun I hI => ?_⟩
  case refine_7 => rw [decode, hI, Instr.canonical]
  all_goals rintro rfl; rfl

/-! One character in, characters out. -/

/-- R171, R174: what the end of GETC and IN writes in a state that kept `s` but for TRAP's first line. -/
theorem readCharacter_of_trapEnter {s : State} {b : Byte} {rest : List Byte} (bs : List Byte)
    (hi : s.input = b :: rest) :
    readCharacter (s.trapEnter.outBytes bs) =
      ((s.trapEnter.outBytes bs).advanceInput rest).writeReg .r0 (zext8 b) :=
  readCharacter_of_cons (by simpa using hi)

/-- R171, R174: a character is put into R0 alone. -/
theorem writeReg_r0_after_trapEnter (s : State) (bs rest : List Byte) (v : Word) :
    ∀ r, r ≠ .r0 →
      (((s.trapEnter.outBytes bs).advanceInput rest).writeReg .r0 v).reg r = s.regAfterTrapEnter r :=
  fun r hr => (State.writeReg_reg_of_ne _ _ _ hr).trans (State.trapEnter_reg s r)

theorem outBytes_nil (s : State) : s.outBytes [] = s := by
  simp [State.outBytes]

/-- Settles O32: GETC is the read of a character after TRAP's first line. -/
theorem getcStoresOneByteInR0 : Obligations.GetcStoresOneByteInR0 := by
  intro s b rest hi
  have hread := readCharacter_of_trapEnter [] hi
  have hother := writeReg_r0_after_trapEnter s [] rest (zext8 b)
  rw [outBytes_nil] at hread hother
  refine ⟨_, (exec_trapGetc s).trans (congrArg _ hread), ?_, hother, ?_⟩
  · rw [State.writeReg_reg_same, zext8_toNat]
  · simp [SameMemory, SameControl]

/-- Settles O35: IN is the read of a character after the prompt. -/
theorem inPromptsAndStoresOneByteInR0 : Obligations.InPromptsAndStoresOneByteInR0 := by
  intro s b rest hi
  refine ⟨_, (exec_trapIn s).trans (congrArg _ (readCharacter_of_trapEnter _ hi)), ?_, by simp,
    writeReg_r0_after_trapEnter s _ rest _, ?_⟩
  · rw [State.writeReg_reg_same, zext8_toNat]
  · simp [SameMemory, SameControl]

/-- R178: characters after TRAP's first line change the output alone. -/
theorem outBytes_after_trapEnter (s : State) (bs : List Byte) :
    (s.trapEnter.outBytes bs).output = s.output ++ bs ∧ SameRegsAfterTrapEnter s (s.trapEnter.outBytes bs) ∧
    (s.trapEnter.outBytes bs).pc = s.pc ∧ (s.trapEnter.outBytes bs).cond = s.cond ∧
    SameMemory s (s.trapEnter.outBytes bs) ∧ SameInput s (s.trapEnter.outBytes bs) ∧
    SameControl s (s.trapEnter.outBytes bs) := by
  refine ⟨by simp, trapEnter_sameRegsAfterTrapEnter s, ?_⟩
  simp [SameMemory, SameInput, SameControl]

theorem outBytes_append (s : State) (bs cs : List Byte) : (s.outBytes bs).outBytes cs = s.outBytes (bs ++ cs) := by
  simp [State.outBytes]

/-- Settles O33: OUT writes two runs of bytes. -/
theorem outWritesTheCharacterAndTheTerminator : Obligations.OutWritesTheCharacterAndTheTerminator := by
  intro s
  have hout : routineOut s.trapEnter = s.trapEnter.outBytes (lowByte (s.reg .r0) :: s.cfg.outTerminator) := by
    simp [routineOut, State.outByte, outBytes_append]
  exact ⟨_, lowByte (s.reg .r0), (exec_trapOut s).trans (congrArg _ hout), lowByte_toNat _,
    outBytes_after_trapEnter s _⟩

/-- Settles O37: HALT writes its message and then the run state alone. -/
theorem haltEmitsTheMessageAndHalts : Obligations.HaltEmitsTheMessageAndHalts := by
  intro s
  refine ⟨_, exec_trapHalt s, rfl, rfl, ?_, trapEnter_sameRegsAfterTrapEnter s, ?_⟩
  · simp [routineHalt]
  · simp [routineHalt, SameMemory, SameInput]

end Sys2Proof.Machine

namespace Sys2Proof.Machine

/-! The scans of PUTS and PUTSP (44_trap.md R173, R175): one loop, which outputs the characters of each word. -/

/-- `scan` is a loop over the words of memory that outputs `chars w` for each word `w`, up to a zero word or the end
of memory, and leaves `wait a` where its read of `a` blocks. -/
structure IsScan (scan : Word → State → State) (chars : Word → List Byte) (wait : Word → Wait) : Prop where
  block : ∀ {s a}, s.memRead a = none → scan a s = s.block (wait a)
  zero : ∀ {s a s1}, s.memRead a = some (0x0000#16, s1) → scan a s = s1
  last : ∀ {s w s1}, s.memRead 0xFFFF#16 = some (w, s1) → w ≠ 0x0000#16 →
    scan 0xFFFF#16 s = s1.outBytes (chars w)
  next : ∀ {s a w s1}, s.memRead a = some (w, s1) → w ≠ 0x0000#16 → a ≠ 0xFFFF#16 →
    scan a s = scan (a + 1#16) (s1.outBytes (chars w))

theorem putsFrom_isScan : IsScan putsFrom (fun w => [character w]) .puts := by
  rw [← lowByte_eq_character]
  constructor
  · intro s a h
    rw [putsFrom_eq, h]
  · intro s a s1 h
    simp [putsFrom_eq, h]
  · intro s w s1 h hw
    simp [putsFrom_eq, h, hw, State.outByte]
  · intro s a w s1 h hw ha
    rw [putsFrom_eq, h]
    simp only [hw, ha, if_false, State.outByte]

theorem putspFrom_isScan : IsScan putspFrom packedCharacters .putsp := by
  rw [← packedBytes_eq_packedCharacters]
  constructor
  · intro s a h
    rw [putspFrom_eq, h]
  · intro s a s1 h
    simp [putspFrom_eq, h]
  · intro s w s1 h hw
    simp [putspFrom_eq, h, hw]
  · intro s a w s1 h hw ha
    rw [putspFrom_eq, h]
    simp only [hw, ha, if_false]

/-- Strings are made of memory: the output does not matter to them. -/
theorem holdsString_outBytes {s : State} {a : Word} {ws : List Word} (bs : List Byte) :
    (s.outBytes bs).holdsString a ws ↔ s.holdsString a ws := Iff.rfl

theorem holdsString_congr {s t : State} {a : Word} {ws : List Word} (hcfg : t.cfg = s.cfg) (hmem : t.mem = s.mem)
    (h : s.holdsString a ws) : t.holdsString a ws := by
  simpa only [State.holdsString, State.holdsWords, hcfg, hmem] using h

theorem ne_last_of_lt {a : Word} (h : a.toNat + 1 < 65536) : a ≠ 0xFFFF#16 := by
  rintro rfl
  exact absurd h (by decide)

/-- The rest of a string. -/
theorem holdsString_tail {s : State} {a w : Word} {ws : List Word} (h : s.holdsString a (w :: ws))
    (ha : a.toNat + 1 < 65536) : s.holdsString (a + 1#16) ws := by
  obtain ⟨hwords, hnz, hend⟩ := h
  refine ⟨by simpa [outBytes_nil] using holdsWords_tail hwords ha [],
    fun v hv => hnz v (List.mem_cons_of_mem w hv), ?_⟩
  rw [add_one_add_ofNat, toNat_add_one ha]
  rw [List.length_cons] at hend
  exact hend.imp_left fun hlen => by omega

namespace IsScan
variable {scan : Word → State → State} {chars : Word → List Byte} {wait : Word → Wait}
variable (hscan : IsScan scan chars wait)
include hscan

/-- A scan outputs words that are not the end of memory and goes on behind them. -/
theorem scan_words {s : State} {a : Word} {ws : List Word} (h : s.holdsWords a ws) (hnz : ∀ w ∈ ws, w ≠ 0x0000#16)
    (hlen : a.toNat + ws.length < 65536) :
    scan a s = scan (a + BitVec.ofNat 16 ws.length) (s.outBytes (ws.flatMap chars)) := by
  induction ws generalizing a s with
  | nil => simp [outBytes_nil]
  | cons w ws ih =>
    rw [List.length_cons] at hlen
    have ha : a.toNat + 1 < 65536 := by omega
    have hw : w ≠ 0x0000#16 := hnz w List.mem_cons_self
    rw [hscan.next (holdsWords_head h) hw (ne_last_of_lt ha),
      ih (holdsWords_tail h ha _) (fun v hv => hnz v (List.mem_cons_of_mem w hv)) (by rw [toNat_add_one ha]; omega),
      outBytes_append, add_one_add_ofNat, List.length_cons, List.flatMap_cons]

/-- A scan of a string outputs its characters and changes nothing else. -/
theorem scan_string {s : State} {a : Word} {ws : List Word} (h : s.holdsString a ws) :
    scan a s = s.outBytes (ws.flatMap chars) := by
  induction ws generalizing a s with
  | nil =>
    obtain ⟨-, -, hend | ⟨hzero, hne⟩⟩ := h
    · have := a.isLt
      simp at hend
      omega
    · rw [List.length_nil, BitVec.add_zero] at hzero hne
      rw [hscan.zero (by rw [memRead_of_ne hne, hzero]), List.flatMap_nil, outBytes_nil]
  | cons w ws ih =>
    have hhead := holdsWords_head h.1
    have hw : w ≠ 0x0000#16 := h.2.1 w List.mem_cons_self
    by_cases ha : a.toNat + 1 < 65536
    · rw [hscan.next hhead hw (ne_last_of_lt ha), ih ((holdsString_outBytes _).mpr (holdsString_tail h ha)),
        outBytes_append, List.flatMap_cons]
    · have hlast : a = 0xFFFF#16 := by bv_omega
      have hlen := h.1.1
      rw [List.length_cons] at hlen
      obtain rfl : ws = [] := List.eq_nil_of_length_eq_zero (by omega)
      subst hlast
      rw [hscan.last hhead hw, List.flatMap_cons, List.flatMap_nil, List.append_nil]

/-- A scan of a string in memory, started by a TRAP. -/
theorem scan_string_of_trap {s : State} {ws : List Word} (h : s.holdsString (s.reg .r0) ws) :
    scan (s.trapEnter.reg .r0) s.trapEnter = s.trapEnter.outBytes (ws.flatMap chars) := by
  rw [State.trapEnter_reg_r0]
  exact hscan.scan_string (holdsString_congr s.trapEnter_cfg s.trapEnter_mem h)

/-- A scan whose words end just before `KBSR_ADDR`, started by a TRAP. -/
theorem scan_to_kbsr {s : State} {ws : List Word} (h : s.holdsWords (s.reg .r0) ws)
    (hnz : ∀ w ∈ ws, w ≠ 0x0000#16) (hlen : (s.reg .r0).toNat + ws.length = s.cfg.kbsrAddr.toNat) :
    scan (s.trapEnter.reg .r0) s.trapEnter = scan s.cfg.kbsrAddr (s.trapEnter.outBytes (ws.flatMap chars)) := by
  have hlt := s.cfg.kbsrAddr.isLt
  have hkbsr : s.reg .r0 + BitVec.ofNat 16 ws.length = s.cfg.kbsrAddr := by
    apply BitVec.eq_of_toNat_eq
    rw [BitVec.toNat_add, BitVec.toNat_ofNat]
    omega
  rw [State.trapEnter_reg_r0, hscan.scan_words (holdsWords_trapEnter h) hnz (by omega), hkbsr]

/-- A scan that reaches `KBSR_ADDR` with no byte waits there, the characters before it output. -/
theorem scan_waits_at_kbsr {s : State} {ws : List Word} (h : s.holdsWords (s.reg .r0) ws)
    (hnz : ∀ w ∈ ws, w ≠ 0x0000#16) (hlen : (s.reg .r0).toNat + ws.length = s.cfg.kbsrAddr.toNat)
    (hi : s.input = []) :
    scan (s.trapEnter.reg .r0) s.trapEnter =
      (s.trapEnter.outBytes (ws.flatMap chars)).block (wait s.cfg.kbsrAddr) := by
  have hnone : (s.trapEnter.outBytes (ws.flatMap chars)).memRead s.cfg.kbsrAddr = none :=
    memRead_none.mpr ⟨by simp, by simpa using hi⟩
  rw [hscan.scan_to_kbsr h hnz hlen, hscan.block hnone]

end IsScan

/-- Settles O34: the loop of PUTS outputs the string. -/
theorem putsOutputsTheString : Obligations.PutsOutputsTheString := by
  intro s ws h
  have hscan := putsFrom_isScan.scan_string_of_trap h
  rw [← List.map_eq_flatMap] at hscan
  exact ⟨_, (exec_trapPuts s).trans (congrArg _ hscan), outBytes_after_trapEnter s _⟩

/-- Settles O36: the loop of PUTSP outputs the packed string. -/
theorem putspOutputsThePackedString : Obligations.PutspOutputsThePackedString := by
  intro s ws h
  exact ⟨_, (exec_trapPutsp s).trans (congrArg _ (putspFrom_isScan.scan_string_of_trap h)),
    outBytes_after_trapEnter s _⟩

/-- R96, R178: a wait after characters changes the output and the wait alone. -/
theorem block_after_trapEnter (s : State) (bs : List Byte) (w : Wait) :
    ((s.trapEnter.outBytes bs).block w).waiting = some w ∧ ((s.trapEnter.outBytes bs).block w).run = s.run ∧
    ((s.trapEnter.outBytes bs).block w).output = s.output ++ bs ∧
    SameRegsAfterTrapEnter s ((s.trapEnter.outBytes bs).block w) ∧
    ((s.trapEnter.outBytes bs).block w).pc = s.pc ∧ ((s.trapEnter.outBytes bs).block w).cond = s.cond ∧
    SameMemory s ((s.trapEnter.outBytes bs).block w) ∧ SameInput s ((s.trapEnter.outBytes bs).block w) ∧
    ((s.trapEnter.outBytes bs).block w).cfg = s.cfg := by
  refine ⟨rfl, by simp, by simp, trapEnter_sameRegsAfterTrapEnter s, ?_⟩
  simp [SameMemory, SameInput]

/-- Settles O39: both scans stop at the read that blocks. -/
theorem putsWaitsAtKbsrAfterItsOutput : Obligations.PutsWaitsAtKbsrAfterItsOutput := by
  intro s ws h hnz hlen hi
  have hputs := putsFrom_isScan.scan_waits_at_kbsr h hnz hlen hi
  rw [← List.map_eq_flatMap] at hputs
  exact ⟨⟨_, (exec_trapPuts s).trans (congrArg _ hputs), block_after_trapEnter s _ _⟩,
    ⟨_, (exec_trapPutsp s).trans (congrArg _ (putspFrom_isScan.scan_waits_at_kbsr h hnz hlen hi)),
      block_after_trapEnter s _ _⟩⟩

end Sys2Proof.Machine

namespace Sys2Proof.Machine

/-! Scans that meet the keyboard with a byte of input (20_memory.md R43, R45; 44_trap.md R173, R175). -/

/-- What a refresh makes of memory depends on memory and the parameters alone. -/
theorem refresh_mem_congr {s t : State} (hcfg : t.cfg = s.cfg) (hmem : t.mem = s.mem) (b : Byte) :
    (t.refresh b).mem = (s.refresh b).mem := by
  by_cases hb : b = 0#8
  · subst hb
    simp only [refresh_zero, State.memWrite_mem, hcfg, hmem]
  · simp only [refresh_of_ne _ hb, State.memWrite_mem, hcfg, hmem]

theorem outBytes_inj {s : State} {bs cs : List Byte} (h : s.outBytes bs = s.outBytes cs) : bs = cs :=
  List.append_cancel_left (congrArg State.output h)

namespace IsScan
variable {scan : Word → State → State} {chars : Word → List Byte} {wait : Word → Wait}
variable (hscan : IsScan scan chars wait)
include hscan

/-- A scan at `KBSR_ADDR` with a byte refreshes the keyboard once, and never waits: after a zero byte it ends there,
and after any other it outputs the refreshed word and the string behind. -/
theorem scan_refreshes_at_kbsr {s : State} {b : Byte} {rest : List Byte} (hwf : s.cfg.wf = true)
    (hi : s.input = b :: rest) :
    ∃ cs, scan s.cfg.kbsrAddr s = ((s.advanceInput rest).refresh b).outBytes cs ∧
      (b = 0x00#8 → cs = []) ∧
      (b ≠ 0x00#8 → s.cfg.kbsrAddr = 0xFFFF#16 → cs = chars 0x8000#16) ∧
      (b ≠ 0x00#8 → s.cfg.kbsrAddr ≠ 0xFFFF#16 → ∀ ws,
        ((s.advanceInput rest).refresh b).holdsString (s.cfg.kbsrAddr + 1#16) ws →
          cs = chars 0x8000#16 ++ ws.flatMap chars) := by
  have hread := memRead_kbsr_word hwf hi
  by_cases hb : b = 0x00#8
  · rw [if_pos hb] at hread
    exact ⟨[], (hscan.zero hread).trans (outBytes_nil _).symm, fun _ => rfl, fun h => absurd hb h,
      fun h => absurd hb h⟩
  · rw [if_neg hb] at hread
    by_cases hlast : s.cfg.kbsrAddr = 0xFFFF#16
    · rw [hlast] at hread ⊢
      exact ⟨chars 0x8000#16, hscan.last hread (by decide), fun h => absurd h hb, fun _ _ => rfl,
        fun _ h => absurd rfl h⟩
    · have hgo := hscan.next hread (by decide) hlast
      have hstring : ∀ ws, ((s.advanceInput rest).refresh b).holdsString (s.cfg.kbsrAddr + 1#16) ws →
          scan s.cfg.kbsrAddr s = ((s.advanceInput rest).refresh b).outBytes (chars 0x8000#16 ++ ws.flatMap chars) := by
        intro ws hws
        rw [hgo, hscan.scan_string ((holdsString_outBytes _).mpr hws), outBytes_append]
      have hbehind : ((s.advanceInput rest).refresh b).cfg.kbsrAddr.toNat < (s.cfg.kbsrAddr + 1#16).toNat := by
        simp only [State.refresh_cfg, State.advanceInput_cfg]
        bv_omega
      obtain ⟨ws, hws⟩ := exists_holdsString _ _ _ rfl hbehind
      exact ⟨_, hstring ws hws, fun h => absurd h hb, fun _ h => absurd h hlast,
        fun _ _ ws1 hws1 => outBytes_inj ((hstring ws hws).symm.trans (hstring ws1 hws1))⟩

/-- A scan whose words end just before `KBSR_ADDR`, started by a TRAP, with a byte of input: the words' characters,
one refresh, and what the scan outputs from there on. -/
theorem scan_across_kbsr {s : State} {ws : List Word} {b : Byte} {rest : List Byte} (hwf : s.cfg.wf = true)
    (h : s.holdsWords (s.reg .r0) ws) (hnz : ∀ w ∈ ws, w ≠ 0x0000#16)
    (hlen : (s.reg .r0).toNat + ws.length = s.cfg.kbsrAddr.toNat) (hi : s.input = b :: rest) :
    ∃ cs, scan (s.trapEnter.reg .r0) s.trapEnter =
        (((s.trapEnter.outBytes (ws.flatMap chars)).advanceInput rest).refresh b).outBytes cs ∧
      (b = 0x00#8 → cs = []) ∧
      (b ≠ 0x00#8 → s.cfg.kbsrAddr = 0xFFFF#16 → cs = chars 0x8000#16) ∧
      (b ≠ 0x00#8 → s.cfg.kbsrAddr ≠ 0xFFFF#16 → ∀ (v : Word) (s1 : State) (ws1 : List Word),
        s.memRead s.cfg.kbsrAddr = some (v, s1) → s1.holdsString (s.cfg.kbsrAddr + 1#16) ws1 →
          cs = chars 0x8000#16 ++ ws1.flatMap chars) := by
  have hcfg : (s.trapEnter.outBytes (ws.flatMap chars)).cfg = s.cfg := s.trapEnter_cfg
  obtain ⟨cs, hcs, hzero, hlast, hstring⟩ := hscan.scan_refreshes_at_kbsr
    (s := s.trapEnter.outBytes (ws.flatMap chars)) (b := b) (rest := rest) (by rwa [hcfg]) (by simpa using hi)
  rw [hcfg] at hcs hlast hstring
  refine ⟨cs, (hscan.scan_to_kbsr h hnz hlen).trans hcs, hzero, hlast, fun hb hne v s1 ws1 hread hws1 => ?_⟩
  obtain ⟨-, rfl⟩ := Prod.mk.inj (Option.some.inj ((memRead_kbsr hi).symm.trans hread))
  exact hstring hb hne ws1 (holdsString_congr (by simp) (refresh_mem_congr (by simp) (by simp) b) hws1)

end IsScan

/-- R43: a refresh after TRAP's first line and some characters, with characters after it. -/
theorem refresh_after_trapEnter {s : State} (hwf : s.cfg.wf = true) (b : Byte) (rest bs cs : List Byte) :
    OneRefresh b rest s ((((s.trapEnter.outBytes bs).advanceInput rest).refresh b).outBytes cs) ∧
    SameRegsAfterTrapEnter s ((((s.trapEnter.outBytes bs).advanceInput rest).refresh b).outBytes cs) ∧
    ((((s.trapEnter.outBytes bs).advanceInput rest).refresh b).outBytes cs).pc = s.pc ∧
    ((((s.trapEnter.outBytes bs).advanceInput rest).refresh b).outBytes cs).cond = s.cond ∧
    SameControl s ((((s.trapEnter.outBytes bs).advanceInput rest).refresh b).outBytes cs) := by
  have hmem : (((s.trapEnter.outBytes bs).advanceInput rest).refresh b).mem = (s.refresh b).mem :=
    refresh_mem_congr (t := (s.trapEnter.outBytes bs).advanceInput rest) s.trapEnter_cfg s.trapEnter_mem b
  refine ⟨⟨?_, ?_, fun a h1 h2 => ?_, by simp, by simp⟩, fun r => ?_, by simp, by simp, by simp [SameControl]⟩
  · rw [State.outBytes_mem, hmem, refresh_read_kbsr s b hwf]
  · rw [State.outBytes_mem, hmem, refresh_read_kbdr s b hwf]
    congr 1
    apply BitVec.eq_of_toNat_eq
    have := b.isLt
    rw [zext8_toNat, BitVec.toNat_ofNat, Nat.mod_eq_of_lt (by omega)]
  · rw [State.outBytes_mem, hmem, refresh_read_of_ne s b h1 h2]
  · rw [State.outBytes_reg, State.refresh_reg]
    exact State.trapEnter_reg s r

/-- Settles O54: both scans make one refresh and output what stands behind it. -/
theorem stringsAcrossKbsrRefreshTheKeyboardOnce : Obligations.StringsAcrossKbsrRefreshTheKeyboardOnce := by
  intro s ws b rest hwf h hnz hlen hi
  obtain ⟨cs, ht, hzero, hlast, hstring⟩ := putsFrom_isScan.scan_across_kbsr hwf h hnz hlen hi
  obtain ⟨ds, hu, hzero', hlast', hstring'⟩ := putspFrom_isScan.scan_across_kbsr hwf h hnz hlen hi
  simp only [← List.map_eq_flatMap] at ht hstring
  obtain ⟨htrefresh, htregs, htpc, htcond, htcontrol⟩ := refresh_after_trapEnter hwf b rest (ws.map character) cs
  refine ⟨_, _, cs, ds, (exec_trapPuts s).trans (congrArg _ ht), (exec_trapPutsp s).trans (congrArg _ hu), by simp,
    by simp, fun hb => ⟨hzero hb, hzero' hb⟩, fun hb hk => ⟨hlast hb hk, hlast' hb hk⟩,
    fun hb hk v s1 ws1 hread hws1 => ⟨hstring hb hk v s1 ws1 hread hws1, hstring' hb hk v s1 ws1 hread hws1⟩,
    htrefresh, htregs, htpc, htcond, htcontrol, refresh_after_trapEnter hwf b rest _ ds⟩

end Sys2Proof.Machine

namespace Sys2Proof.Machine

/-! The step (40_fetch_decode.md R91 to R96): the invariant, the channels, and the cycle. -/

/-- The invariant inside a cycle: the core is RUNNING and nothing waits. -/
structure State.InvInCycle (s : State) : Prop where
  cfg : s.cfg.wf = true
  mem : s.mem.wf = true
  cond : condLegal s.cond = true
  run : s.run = .running
  waiting : s.waiting = none

theorem invInCycle_kept : Kept State.InvInCycle where
  writeReg _ _ _ h := ⟨h.cfg, h.mem, h.cond, h.run, h.waiting⟩
  setcc _ v h := ⟨h.cfg, h.mem, condLegal_flag (flagOf v), h.run, h.waiting⟩
  writePc _ _ h := ⟨h.cfg, h.mem, h.cond, h.run, h.waiting⟩
  memWrite _ a v h := ⟨h.cfg, Memory.wf_write _ a v h.mem, h.cond, h.run, h.waiting⟩
  outBytes _ _ h := ⟨h.cfg, h.mem, h.cond, h.run, h.waiting⟩
  advanceInput _ _ _ _ h := ⟨h.cfg, h.mem, h.cond, h.run, h.waiting⟩

/-- Where nothing waits, the wait is legal. -/
theorem waitLegal_of_none {s : State} (h : s.waiting = none) : s.waitLegal = true := by
  rw [State.waitLegal, h]

theorem waitLegal_block {s : State} {w : Wait} (hrun : s.run = .running) (hw : w.legal s = true) :
    (s.block w).waitLegal = true := by
  have hlegal : w.legal (s.block w) = w.legal s := by cases w <;> rfl
  simp [State.waitLegal, hrun, hlegal, hw]

theorem reachable_fatal {c : FatalCode} (h : c ≠ .unknownOpcode) : (RunState.fatal c).reachable = true := by
  cases c with
  | unknownOpcode => exact absurd rfl h
  | _ => rfl

theorem invInCycle_ends : Ends State.InvInCycle State.Inv where
  done _ h := ⟨h.cfg, h.mem, h.cond, by rw [h.run]; rfl, waitLegal_of_none h.waiting⟩
  block _ _ h hw _ := ⟨h.cfg, h.mem, h.cond, by rw [State.block_run, h.run]; rfl, waitLegal_block h.run hw⟩
  fatal _ _ hc h := ⟨h.cfg, h.mem, h.cond, reachable_fatal hc, waitLegal_of_none h.waiting⟩
  halt _ h := ⟨h.cfg, h.mem, h.cond, rfl, waitLegal_of_none h.waiting⟩

/-- Settles O45: every operation of a cycle keeps the invariant of its inside, and every end gives the invariant. -/
theorem stepKeepsTheInvariant : Obligations.StepKeepsTheInvariant := by
  rintro s t ⟨hcfg, hmem, hcond, -, -⟩ ht
  exact step_ends invInCycle_kept invInCycle_ends ⟨hcfg, hmem, hcond, (step_next_running ht).1, rfl⟩ ht

theorem cycle_isNext (s : State) : ∃ t, cycle s = .next t := by
  cases h : s.memRead s.pc with
  | none => exact ⟨_, cycle_of_block h⟩
  | some p =>
    obtain ⟨t, ht⟩ := exec_isNext (decode p.1) (p.2.writePc (p.2.pc + 1#16))
    exact ⟨t, (cycle_of_read h).trans ht⟩

theorem resume_isNext (w : Wait) (s : State) : ∃ t, resume w s = .next t := by
  cases w with
  | fetch => exact cycle_isNext s
  | _ => exact ⟨_, rfl⟩

/-- Settles O44: a cycle and the rest of one have a next state. -/
theorem aRunningCoreAlwaysSteps : Obligations.ARunningCoreAlwaysSteps := by
  intro s hrun
  rw [step_of_running hrun]
  cases hw : s.waiting with
  | none =>
    rw [stepRunning_of_none hw]
    exact cycle_isNext s
  | some w =>
    rw [stepRunning_of_waiting hw]
    exact resume_isNext w s.unblock

/-- The channels of `t` have gone on from those of `s`, in order, with the same parameters (R31, R179). -/
structure ChannelsAdvance (s t : State) : Prop where
  output : ∃ bs, t.output = s.output ++ bs
  input : ∃ taken, s.input = taken ++ t.input ∧ t.consumed = s.consumed + taken.length
  cfg : t.cfg = s.cfg

theorem channelsAdvance_kept (s : State) : Kept (ChannelsAdvance s) where
  writeReg _ _ _ h := ⟨h.output, h.input, h.cfg⟩
  setcc _ _ h := ⟨h.output, h.input, h.cfg⟩
  writePc _ _ h := ⟨h.output, h.input, h.cfg⟩
  memWrite _ _ _ h := ⟨h.output, h.input, h.cfg⟩
  outBytes _ cs h := by
    obtain ⟨bs, hbs⟩ := h.output
    exact ⟨⟨bs ++ cs, by rw [State.outBytes_output, hbs, List.append_assoc]⟩, h.input, h.cfg⟩
  advanceInput u b rest hi h := by
    obtain ⟨taken, htaken, hcount⟩ := h.input
    refine ⟨h.output, ⟨taken ++ [b], by simp [htaken, hi], ?_⟩, h.cfg⟩
    simp only [State.advanceInput_consumed, hcount, List.length_append, List.length_singleton]
    omega

theorem channelsAdvance_ends (s : State) : Ends (ChannelsAdvance s) (ChannelsAdvance s) where
  done _ h := h
  block _ _ h _ _ := ⟨h.output, h.input, h.cfg⟩
  fatal _ _ _ h := ⟨h.output, h.input, h.cfg⟩
  halt _ h := ⟨h.output, h.input, h.cfg⟩

/-- Settles O49: every operation of a cycle and every end lets the channels go on in order. -/
theorem channelsAdvanceInOrder : Obligations.ChannelsAdvanceInOrder := by
  intro s t ht
  have hstart : ChannelsAdvance s s.unblock := ⟨⟨[], by simp⟩, ⟨[], rfl, rfl⟩, rfl⟩
  have h := step_ends (channelsAdvance_kept s) (channelsAdvance_ends s) hstart ht
  exact ⟨h.output, h.input, h.cfg⟩

/-- R94: a step with no wait, or with a wait at the fetch, is a cycle. -/
theorem step_of_fetch {s : State} (hrun : s.run = .running) (hw : s.waiting = none ∨ s.waiting = some .fetch) :
    step s = cycle s.unblock := by
  rw [step_of_running hrun]
  obtain hw | hw := hw
  · rw [stepRunning_of_none hw, State.unblock_of_none s hw]
  · rw [stepRunning_of_waiting hw, resume_fetch]

/-- R91 to R94: a cycle whose fetch completes. -/
theorem step_of_read {s s1 : State} {I : Word} (hrun : s.run = .running)
    (hw : s.waiting = none ∨ s.waiting = some .fetch) (h : s.unblock.memRead s.pc = some (I, s1)) :
    step s = exec (decode I) (s1.writePc (s.pc + 1#16)) := by
  obtain ⟨-, -, hpc, -⟩ := memRead_frame h
  rw [step_of_fetch hrun hw, cycle_of_read h, hpc, State.unblock_pc]

/-- R91 to R94: a cycle that fetches a word of plain memory. -/
theorem step_of_plain_fetch {s : State} (hrun : s.run = .running) (hw : s.waiting = none)
    (hpc : s.pc ≠ s.cfg.kbsrAddr) : step s = exec (decode (s.mem.read s.pc)) (s.writePc (s.pc + 1#16)) := by
  refine step_of_read hrun (.inl hw) ?_
  rw [State.unblock_of_none s hw, memRead_of_ne hpc]

/-- Settles O43: a fetch that completes gives the decoded instruction, which for the word of a well-formed instruction
is that instruction. -/
theorem stepRunsTheDecodedInstruction : Obligations.StepRunsTheDecodedInstruction := by
  refine ⟨fun s I s1 hrun hw h => step_of_read hrun hw h, fun s i hrun hw hpc hwf hI => ?_⟩
  rw [step_of_plain_fetch hrun hw hpc, hI, decode_encode, Instr.canonical_of_wf i hwf]

/-- Settles O50: the store writes the next word, which the next fetch reads. -/
theorem theNextFetchSeesTheStore : Obligations.TheNextFetchSeesTheStore := by
  intro s sr hrun hw hpc hpc1 hI
  have hea : (s.writePc (s.pc + 1#16)).pcRel9 0#9 = s.pc + 1#16 := BitVec.add_zero _
  have hst : step s = .next ((s.writePc (s.pc + 1#16)).memWrite (s.pc + 1#16) (s.reg sr)) := by
    rw [step_of_plain_fetch hrun hw hpc, hI, decode_encode, Instr.canonical, exec_st, hea, State.writePc_reg]
  refine ⟨_, hst, Memory.read_write_same _ _ _, ?_⟩
  have hfetch := step_of_plain_fetch (s := (s.writePc (s.pc + 1#16)).memWrite (s.pc + 1#16) (s.reg sr)) hrun hw hpc1
  rw [State.memWrite_mem, State.memWrite_pc, State.writePc_pc, Memory.read_write_same, BitVec.add_assoc] at hfetch
  exact hfetch

/-- The word 0x0000 is a no-operation. -/
theorem exec_decode_zero (s : State) : exec (decode 0x0000#16) s = .next s := by
  have hdecode : decode 0x0000#16 = .br 0b000#3 0#9 := by decide
  rw [hdecode]
  exact noBranchBeforeTheFirstFlag _ _ _ (.inr rfl)

/-- The word that a refresh by a non-zero byte leaves in KBSR stops the core. -/
theorem exec_decode_kbsr (s : State) : exec (decode 0x8000#16) s = .next (s.raiseFatal .rtiOrRes) := by
  have hdecode : decode 0x8000#16 = .rti := by decide
  rw [hdecode, exec_rti]

/-- Settles O51: the fetch refreshes the keyboard, and the refreshed word is a no-operation or RTI. -/
theorem aFetchFromKbsrRunsTheRefreshedWord : Obligations.AFetchFromKbsrRunsTheRefreshedWord := by
  intro s b rest hwf hrun hw hpc hi
  have hread := memRead_kbsr_word hwf hi
  rw [← hpc, ← State.unblock_of_none s hw, State.unblock_pc] at hread
  have hstep := step_of_read hrun (.inl hw) hread
  rw [State.unblock_of_none s hw] at hstep
  have hkbdr := refresh_read_kbdr (s.advanceInput rest) b hwf
  rw [State.advanceInput_cfg, State.advanceInput_mem] at hkbdr
  by_cases hb : b = 0#8
  · rw [if_pos hb, exec_decode_zero] at hstep
    rw [if_pos hb] at hkbdr
    exact ⟨_, hstep, rfl, by simp, fun r => by simp, by simp, by simp, fun h => absurd hb h,
      fun _ => ⟨by simpa, hkbdr⟩⟩
  · rw [if_neg hb, exec_decode_kbsr] at hstep
    rw [if_neg hb] at hkbdr
    refine ⟨_, hstep, rfl, by simp, fun r => by simp, by simp, by simp, fun _ => ⟨rfl, ?_⟩,
      fun h => absurd h hb⟩
    rw [State.raiseFatal_mem, State.writePc_mem, hkbdr, zext8_toNat]

/-- Settles O52, by induction on the number of words: each is a no-operation. -/
theorem zeroedMemoryRunsAsNoOperations : Obligations.ZeroedMemoryRunsAsNoOperations := by
  intro k
  induction k with
  | zero =>
    intro s _ _ _
    rw [BitVec.add_zero]
    exact core_run_zero s
  | succ k ih =>
    intro s hrun hw hzero
    obtain ⟨hword, hpc⟩ := hzero 0 (by omega)
    rw [BitVec.add_zero] at hword hpc
    have hstep : step s = .next (s.writePc (s.pc + 1#16)) := by
      rw [step_of_plain_fetch hrun hw hpc, hword, exec_decode_zero]
    have hrest := ih (s.writePc (s.pc + 1#16)) hrun hw fun i hi => by
      have h := hzero (i + 1) (by omega)
      rwa [← add_one_add_ofNat] at h
    rw [State.writePc_pc, add_one_add_ofNat] at hrest
    exact (core_run_succ_of_next k hstep).trans hrest

/-! BR and the flags (10_state.md R25, R28; 43_control.md R150). -/

/-- After a result, a BR with the bit of one flag alone branches exactly if the result has that flag. -/
theorem exec_br_setcc (f : Flag) (o9 : BitVec 9) (s : State) (v : Word) :
    exec (.br f.bits o9) (s.setcc v) =
      .next (if flagOf v = f then (s.setcc v).writePc (s.pcRel9 o9) else s.setcc v) := by
  have htaken : (s.setcc v).branchTaken f.bits = true ↔ flagOf v = f := by
    rw [State.branchTaken, State.setcc_cond]
    cases f <;> cases flagOf v <;> decide
  by_cases h : flagOf v = f
  · rw [if_pos h, exec_br_of_taken (htaken.mpr h)]
    rfl
  · rw [if_neg h, exec_br_of_not_taken (mt htaken.mp h)]

/-- R28: the flag of a word by its sign. -/
theorem flagOf_eq_iff (v : Word) :
    (flagOf v = .negative ↔ v.toInt < 0) ∧ (flagOf v = .zero ↔ v.toInt = 0) ∧
    (flagOf v = .positive ↔ 0 < v.toInt) := by
  obtain h | h | h := lt_trichotomy v.toInt 0
  · rw [flagOf_of_toInt_neg h]
    exact ⟨iff_of_true rfl h, iff_of_false nofun h.ne, iff_of_false nofun h.not_gt⟩
  · rw [flagOf_of_toInt_eq_zero h]
    exact ⟨iff_of_false nofun h.not_lt, iff_of_true rfl h, iff_of_false nofun h.not_gt⟩
  · rw [flagOf_of_toInt_pos h]
    exact ⟨iff_of_false nofun h.not_gt, iff_of_false nofun h.ne', iff_of_true rfl h⟩

/-- A word whose top four bits are 0 is a BR with the operands of its fields. -/
theorem decode_of_br {I : Word} (h : I.toNat / 4096 = 0) : decode I = .br (bits I 9 3) (bits I 0 9) := by
  have hfield : bits I 12 4 = 0#4 := by
    apply BitVec.eq_of_toNat_eq
    rw [bits, BitVec.extractLsb'_toNat, Nat.shiftRight_eq_div_pow, h]
    rfl
  rw [decode, decodeForm, opcodeOf, hfield]
  rfl

/-- Settles O53: BR meets the flag that the sign of the result chose, and its operands are fields of the word. -/
theorem brTestsTheSignOfTheLastResult : Obligations.BrTestsTheSignOfTheLastResult := by
  refine ⟨⟨rfl, rfl, rfl⟩, fun v o9 s => ?_, fun I hI => ⟨_, _, decode_of_br hI, ?_, ?_, ?_, ?_⟩⟩
  · obtain ⟨hneg, hzero, hpos⟩ := flagOf_eq_iff v
    have hn := exec_br_setcc .negative o9 s v
    have hz := exec_br_setcc .zero o9 s v
    have hp := exec_br_setcc .positive o9 s v
    simp only [hneg, hzero, hpos] at hn hz hp
    exact ⟨hn, hz, hp⟩
  · simp [bits, BitVec.extractLsb'_toNat]
  all_goals simp [bits]

end Sys2Proof.Machine

namespace Sys2Proof.Machine

/-! Waiting for input (40_fetch_decode.md R96; 60_exceptions.md R215). -/

theorem exec_ld_of_block (dr : Reg) {off : BitVec 9} {s : State} (h : s.memRead (s.pcRel9 off) = none) :
    exec (.ld dr off) s = .next (s.block (.load dr (s.pcRel9 off))) :=
  congrArg Host.Outcome.next (loadFrom_of_block h)

theorem exec_ldr_of_block (dr : Reg) {baseR : Reg} {off : BitVec 6} {s : State}
    (h : s.memRead (s.baseRel baseR off) = none) :
    exec (.ldr dr baseR off) s = .next (s.block (.load dr (s.baseRel baseR off))) :=
  congrArg Host.Outcome.next (loadFrom_of_block h)

theorem exec_ldi_of_block (dr : Reg) {off : BitVec 9} {s : State} (h : s.memRead (s.pcRel9 off) = none) :
    exec (.ldi dr off) s = .next (s.block (.loadPointer dr (s.pcRel9 off))) :=
  congrArg Host.Outcome.next (loadIndirectFrom_of_block h)

theorem exec_ldi_of_second_block (dr : Reg) {off : BitVec 9} {s s1 : State} {p : Word}
    (hp : s.memRead (s.pcRel9 off) = some (p, s1)) (h : s1.memRead p = none) :
    exec (.ldi dr off) s = .next (s1.block (.load dr p)) :=
  congrArg Host.Outcome.next ((loadIndirectFrom_of_read hp).trans (loadFrom_of_block h))

theorem exec_sti_of_block (sr : Reg) {off : BitVec 9} {s : State} (h : s.memRead (s.pcRel9 off) = none) :
    exec (.sti sr off) s = .next (s.block (.storePointer sr (s.pcRel9 off))) :=
  congrArg Host.Outcome.next (storeIndirectFrom_of_block h)

/-- R96: a load or an STI whose read blocks with no byte of input leaves all but the wait as it was. -/
theorem exec_blocks {s : State} {i : Instr} (hi : s.input = [])
    (h : (∃ dr o9, i = .ld dr o9 ∧ s.pcRel9 o9 = s.cfg.kbsrAddr) ∨
      (∃ dr baseR o6, i = .ldr dr baseR o6 ∧ s.baseRel baseR o6 = s.cfg.kbsrAddr) ∨
      (∃ dr o9, i = .ldi dr o9 ∧ (s.pcRel9 o9 = s.cfg.kbsrAddr ∨ s.mem.read (s.pcRel9 o9) = s.cfg.kbsrAddr)) ∨
      (∃ sr o9, i = .sti sr o9 ∧ s.pcRel9 o9 = s.cfg.kbsrAddr)) :
    i ≠ .trapIn ∧ isTrap i = false ∧ ∃ w, exec i s = .next (s.block w) := by
  have hblock {a : Word} (ha : a = s.cfg.kbsrAddr) : s.memRead a = none := memRead_none.mpr ⟨ha, hi⟩
  obtain ⟨dr, o9, rfl, hea⟩ | ⟨dr, baseR, o6, rfl, hea⟩ | ⟨dr, o9, rfl, hp⟩ | ⟨sr, o9, rfl, hea⟩ := h
  · exact ⟨nofun, rfl, _, exec_ld_of_block dr (hblock hea)⟩
  · exact ⟨nofun, rfl, _, exec_ldr_of_block dr (hblock hea)⟩
  · refine ⟨nofun, rfl, ?_⟩
    by_cases hea : s.pcRel9 o9 = s.cfg.kbsrAddr
    · exact ⟨_, exec_ldi_of_block dr (hblock hea)⟩
    · exact ⟨_, exec_ldi_of_second_block dr (memRead_of_ne hea) (hblock (hp.resolve_left hea))⟩
  · exact ⟨nofun, rfl, _, exec_sti_of_block sr (hblock hea)⟩

/-- Settles O38: the request blocks in the state that all before it has left, and a blocked fetch is first in its
cycle. -/
theorem inputRequestsWaitWhileThereIsNoByte : Obligations.InputRequestsWaitWhileThereIsNoByte := by
  intro s hi hrun hw
  refine ⟨fun i h => ?_, fun hpc => ?_⟩
  · obtain rfl | rfl | h := h
    · have hread : readCharacter s.trapEnter = s.trapEnter.block .character := readCharacter_of_nil (by simpa using hi)
      refine ⟨_, (exec_trapGetc s).trans (congrArg _ hread), nofun, by simp [hrun], by simp,
        trapEnter_sameRegsAfterTrapEnter s, ?_⟩
      simp [SameMemory, SameInput]
    · have hread := readCharacter_of_nil (s := s.trapEnter.outBytes s.trapEnter.cfg.inPrompt) (by simpa using hi)
      refine ⟨_, (exec_trapIn s).trans (congrArg _ hread), nofun, by simp [hrun], by simp,
        trapEnter_sameRegsAfterTrapEnter s, ?_⟩
      simp [SameMemory, SameInput]
    · obtain ⟨hin, htrap, w, hexec⟩ := exec_blocks hi h
      refine ⟨_, hexec, nofun, hrun, by simp [hin], fun r => by simp [htrap], ?_⟩
      simp [SameMemory, SameInput]
  · have hfetch : step s = .next (s.block .fetch) := by
      rw [step_of_fetch hrun (.inl hw), State.unblock_of_none s hw, cycle_of_block (memRead_none.mpr ⟨hpc, hi⟩)]
    exact ⟨_, hfetch, rfl, hrun, rfl, fun _ => rfl, rfl, fun _ => rfl, ⟨rfl, rfl⟩, rfl, rfl⟩

/-- A legal wait, taken off: the core is RUNNING, and the step goes on with what is left of the cycle. -/
theorem step_of_waiting {s : State} {w : Wait} (h : s.Inv) (hw : s.waiting = some w) :
    step s = resume w s.unblock ∧ w.legal s.unblock = true := by
  obtain ⟨-, -, -, -, hlegal⟩ := h
  rw [State.waitLegal, hw] at hlegal
  simp only [Bool.and_eq_true, beq_iff_eq] at hlegal
  refine ⟨(step_of_running hlegal.1).trans (stepRunning_of_waiting hw), ?_⟩
  rw [← hlegal.2]
  cases w <;> rfl

/-- R96, R215: with no byte, what is left of a cycle waits where it waited. -/
theorem resume_of_block {s : State} {w : Wait} (hlegal : w.legal s = true) (hi : s.input = []) :
    resume w s = .next (s.block w) := by
  have hblock {a : Word} (ha : (a == s.cfg.kbsrAddr) = true) : s.memRead a = none :=
    memRead_none.mpr ⟨beq_iff_eq.mp ha, hi⟩
  cases w with
  | fetch => exact cycle_of_block (hblock hlegal)
  | load dr ea => rw [resume_load, loadFrom_of_block (hblock hlegal)]
  | loadPointer dr ea => rw [resume_loadPointer, loadIndirectFrom_of_block (hblock hlegal)]
  | storePointer sr ea => rw [resume_storePointer, storeIndirectFrom_of_block (hblock hlegal)]
  | character => rw [resume_character, readCharacter_of_nil hi]
  | puts a => rw [resume_puts, putsFrom_isScan.block (hblock hlegal)]
  | putsp a => rw [resume_putsp, putspFrom_isScan.block (hblock hlegal)]

/-- Settles O40: the wait is taken off and put back. -/
theorem waitingKeepsAllState : Obligations.WaitingKeepsAllState := by
  intro s hinv hwait hi
  obtain ⟨w, hw⟩ := Option.ne_none_iff_exists'.mp hwait
  obtain ⟨hstep, hlegal⟩ := step_of_waiting hinv hw
  rw [hstep, resume_of_block hlegal hi, State.block_of_waiting s w hw]

theorem memRead_consumed_le {s s1 : State} {a v : Word} (h : s.memRead a = some (v, s1)) :
    s.consumed ≤ s1.consumed := by
  obtain ⟨-, -, rfl⟩ | ⟨-, b, rest, -, rfl, -⟩ := memRead_some h
  · exact le_rfl
  · simp

/-- A load ends or, in LDI, waits at the second read. -/
theorem loadFrom_waiting (dr : Reg) (p : Word) {s : State} (hw : s.waiting = none) :
    s.consumed ≤ (loadFrom dr p s).consumed ∧
    ((loadFrom dr p s).waiting = none ∨ (loadFrom dr p s).waiting = some (.load dr p)) := by
  cases h : s.memRead p with
  | none =>
    rw [loadFrom_of_block h]
    exact ⟨le_rfl, .inr rfl⟩
  | some q =>
    rw [loadFrom_of_read h]
    obtain ⟨-, -, -, -, -, hwaiting, -⟩ := memRead_frame h
    exact ⟨(memRead_consumed_le h).trans_eq rfl, .inl (hwaiting.trans hw)⟩

/-- R96, R215: with a byte, what is left of a cycle takes it and ends, but for an LDI that goes on to its second
read. -/
theorem resume_of_byte {s : State} {w : Wait} {b : Byte} {rest : List Byte} (hwf : s.cfg.wf = true)
    (hnone : s.waiting = none) (hlegal : w.legal s = true) (hi : s.input = b :: rest) :
    ∃ t, resume w s = .next t ∧ s.consumed < t.consumed ∧
      (t.waiting = none ∨ ∃ dr ea p, w = .loadPointer dr ea ∧ t.waiting = some (.load dr p)) := by
  have hread {a : Word} (ha : (a == s.cfg.kbsrAddr) = true) :
      s.memRead a = some (if b = 0#8 then 0x0000#16 else 0x8000#16, (s.advanceInput rest).refresh b) := by
    rw [beq_iff_eq.mp ha, memRead_kbsr_word hwf hi]
  have hscan {scan chars wait} (h : IsScan scan chars wait) {a : Word} (ha : (a == s.cfg.kbsrAddr) = true) :
      s.consumed < (scan a s).consumed ∧ (scan a s).waiting = none := by
    obtain ⟨cs, hcs, -⟩ := h.scan_refreshes_at_kbsr hwf hi
    rw [beq_iff_eq.mp ha, hcs]
    simp [hnone]
  cases w with
  | fetch =>
    have hcycle := cycle_of_read (hread hlegal)
    by_cases hb : b = 0#8
    · rw [if_pos hb, exec_decode_zero] at hcycle
      exact ⟨_, hcycle, by simp, .inl (by simpa using hnone)⟩
    · rw [if_neg hb, exec_decode_kbsr] at hcycle
      exact ⟨_, hcycle, by simp, .inl (by simpa using hnone)⟩
  | load dr ea =>
    refine ⟨_, rfl, ?_⟩
    rw [loadFrom_of_read (hread hlegal)]
    simp [hnone]
  | loadPointer dr ea =>
    refine ⟨_, rfl, ?_⟩
    rw [loadIndirectFrom_of_read (hread hlegal)]
    obtain ⟨hconsumed, hwaiting⟩ := loadFrom_waiting dr (if b = 0#8 then 0x0000#16 else 0x8000#16)
      (s := (s.advanceInput rest).refresh b) (by simpa using hnone)
    exact ⟨by simpa using hconsumed, hwaiting.imp_right fun h => ⟨dr, ea, _, rfl, h⟩⟩
  | storePointer sr ea =>
    refine ⟨_, rfl, ?_⟩
    rw [storeIndirectFrom_of_read (hread hlegal)]
    simp [hnone]
  | character =>
    refine ⟨_, rfl, ?_⟩
    rw [readCharacter_of_cons hi]
    simp [hnone]
  | puts a => exact ⟨_, rfl, (hscan putsFrom_isScan hlegal).imp_right .inl⟩
  | putsp a => exact ⟨_, rfl, (hscan putspFrom_isScan hlegal).imp_right .inl⟩

/-- Settles O41: the step takes the byte and has left the request. -/
theorem aByteEndsTheWait : Obligations.AByteEndsTheWait := by
  intro s hinv hwait hi
  obtain ⟨w, hw⟩ := Option.ne_none_iff_exists'.mp hwait
  obtain ⟨b, rest, hi⟩ := List.exists_cons_of_ne_nil hi
  obtain ⟨hstep, hlegal⟩ := step_of_waiting hinv hw
  obtain ⟨hwf, -⟩ := hinv
  obtain ⟨t, ht, hconsumed, hended | ⟨dr, ea, p, rfl, hload⟩⟩ :=
    resume_of_byte (s := s.unblock) hwf rfl hlegal hi
  · exact ⟨t, hstep.trans ht, hconsumed, by rw [hended, hw]; exact nofun, .inl hended⟩
  · exact ⟨t, hstep.trans ht, hconsumed, by rw [hload, hw]; exact nofun, .inr ⟨dr, ea, p, hw, hload⟩⟩

end Sys2Proof.Machine

namespace Sys2Proof.Machine

/-! A wait leaves no trace (40_fetch_decode.md R96): where an operation waits, what is left of it does, with input
supplied, what the operation does with that input supplied from the start. -/

/-- The operation `f` at `s`, if it ends in a wait, ends in a state `u` put to wait, from which the cycle goes on, with
any input `bs` supplied, as `f` does from `s` with `bs` supplied. -/
def LeavesNoTrace (f : State → Host.Outcome State Fault Refusal) (s : State) : Prop :=
  ∀ t, f s = .next t → t.waiting ≠ none →
    ∃ (u : State) (w : Wait), t = u.block w ∧ u.waiting = none ∧ u.run = s.run ∧
      ∀ bs, resume w (u.supply bs) = f (s.supply bs)

/-- An operation that ends with no wait. -/
theorem leavesNoTrace_of_done {f : State → Host.Outcome State Fault Refusal} {s t : State} (h : f s = .next t)
    (ht : t.waiting = none) : LeavesNoTrace f s := by
  intro u hu hwait
  cases h.symm.trans hu
  exact absurd ht hwait

/-- What is left of a cycle, if it waits at once. -/
theorem leavesNoTrace_of_block {s : State} {w : Wait} (hs : s.waiting = none) (h : resume w s = .next (s.block w)) :
    LeavesNoTrace (resume w) s := by
  intro t ht _
  cases h.symm.trans ht
  exact ⟨s, w, rfl, hs, rfl, fun _ => rfl⟩

/-- An operation that goes on as another does from a later state, with or without more input. -/
theorem leavesNoTrace_of_eq {f g : State → Host.Outcome State Fault Refusal} {s s1 : State} (hrun : s1.run = s.run)
    (heq : f s = g s1) (hsupply : ∀ bs, f (s.supply bs) = g (s1.supply bs)) (h : LeavesNoTrace g s1) :
    LeavesNoTrace f s := by
  intro t ht hwait
  obtain ⟨u, w, rfl, hu, hurun, hresume⟩ := h t (heq.symm.trans ht) hwait
  exact ⟨u, w, rfl, hu, hurun.trans hrun, fun bs => (hresume bs).trans (hsupply bs).symm⟩

theorem memRead_waiting {s s1 : State} {a v : Word} (h : s.memRead a = some (v, s1)) (hs : s.waiting = none) :
    s1.waiting = none := by
  obtain ⟨-, -, -, -, -, hwaiting, -⟩ := memRead_frame h
  exact hwaiting.trans hs

theorem load_leavesNoTrace (dr : Reg) (ea : Word) {s : State} (hs : s.waiting = none) :
    LeavesNoTrace (resume (.load dr ea)) s := by
  rcases h : s.memRead ea with _ | ⟨v, s1⟩
  · exact leavesNoTrace_of_block hs (by rw [resume_load, loadFrom_of_block h])
  · have hs1 := memRead_waiting h hs
    exact leavesNoTrace_of_done (t := s1.writeResult dr v) (by rw [resume_load, loadFrom_of_read h]) hs1

theorem loadPointer_leavesNoTrace (dr : Reg) (ea : Word) {s : State} (hs : s.waiting = none) :
    LeavesNoTrace (resume (.loadPointer dr ea)) s := by
  rcases h : s.memRead ea with _ | ⟨p, s1⟩
  · exact leavesNoTrace_of_block hs (by rw [resume_loadPointer, loadIndirectFrom_of_block h])
  · refine leavesNoTrace_of_eq (memRead_run h) ?_ (fun bs => ?_) (load_leavesNoTrace dr p (memRead_waiting h hs))
    · rw [resume_loadPointer, loadIndirectFrom_of_read h, resume_load]
    · rw [resume_loadPointer, loadIndirectFrom_of_read (memRead_supply bs h), resume_load]

theorem storePointer_leavesNoTrace (sr : Reg) (ea : Word) {s : State} (hs : s.waiting = none) :
    LeavesNoTrace (resume (.storePointer sr ea)) s := by
  rcases h : s.memRead ea with _ | ⟨p, s1⟩
  · exact leavesNoTrace_of_block hs (by rw [resume_storePointer, storeIndirectFrom_of_block h])
  · have hs1 := memRead_waiting h hs
    exact leavesNoTrace_of_done (t := s1.memWrite p (s1.reg sr))
      (by rw [resume_storePointer, storeIndirectFrom_of_read h]) hs1

theorem character_leavesNoTrace {s : State} (hs : s.waiting = none) : LeavesNoTrace (resume .character) s := by
  cases hi : s.input with
  | nil => exact leavesNoTrace_of_block hs (by rw [resume_character, readCharacter_of_nil hi])
  | cons b rest =>
    exact leavesNoTrace_of_done (t := (s.advanceInput rest).writeReg .r0 (zext8 b))
      (by rw [resume_character, readCharacter_of_cons hi]) hs

/-- A scan, by induction on the number of words behind its address. -/
theorem IsScan.leavesNoTrace {scan : Word → State → State} {chars : Word → List Byte} {wait : Word → Wait}
    (hscan : IsScan scan chars wait) (hresume : ∀ a s, resume (wait a) s = .next (scan a s)) (a : Word) {s : State}
    (hs : s.waiting = none) : LeavesNoTrace (resume (wait a)) s := by
  induction hn : wordsAfter a using Nat.strong_induction_on generalizing a s with
  | _ n ih =>
    rcases h : s.memRead a with _ | ⟨w, s1⟩
    · exact leavesNoTrace_of_block hs (by rw [hresume, hscan.block h])
    · have hs1 := memRead_waiting h hs
      by_cases hw : w = 0x0000#16
      · subst hw
        exact leavesNoTrace_of_done (by rw [hresume, hscan.zero h]) hs1
      · by_cases ha : a = 0xFFFF#16
        · subst ha
          exact leavesNoTrace_of_done (t := s1.outBytes (chars w)) (by rw [hresume, hscan.last h hw]) hs1
        · have hlt : wordsAfter (a + 1#16) < n := by
            rw [← hn, wordsAfter_succ ha]
            omega
          have hrun1 := memRead_run h
          refine leavesNoTrace_of_eq (s1 := s1.outBytes (chars w)) hrun1 ?_ (fun bs => ?_) (ih _ hlt (a + 1#16) hs1 rfl)
          · rw [hresume, hresume, hscan.next h hw ha]
          · rw [hresume, hresume, hscan.next (memRead_supply bs h) hw ha]
            rfl

theorem puts_leavesNoTrace (a : Word) {s : State} (hs : s.waiting = none) : LeavesNoTrace (resume (.puts a)) s :=
  putsFrom_isScan.leavesNoTrace resume_puts a hs

theorem putsp_leavesNoTrace (a : Word) {s : State} (hs : s.waiting = none) : LeavesNoTrace (resume (.putsp a)) s :=
  putspFrom_isScan.leavesNoTrace resume_putsp a hs

theorem runRoutine_leavesNoTrace (k : TrapRoutine) {s : State} (hs : s.waiting = none) :
    LeavesNoTrace (fun s => .next (runRoutine k s)) s := by
  cases k with
  | getc => exact character_leavesNoTrace hs
  | out => exact leavesNoTrace_of_done rfl hs
  | puts => exact leavesNoTrace_of_eq rfl rfl (fun _ => rfl) (puts_leavesNoTrace (s.reg .r0) hs)
  | inChar =>
    exact leavesNoTrace_of_eq (s1 := s.outBytes s.cfg.inPrompt) rfl rfl (fun _ => rfl) (character_leavesNoTrace hs)
  | putsp => exact leavesNoTrace_of_eq rfl rfl (fun _ => rfl) (putsp_leavesNoTrace (s.reg .r0) hs)
  | halt => exact leavesNoTrace_of_done rfl hs

/-- A routine after TRAP's first line. -/
theorem leavesNoTrace_of_routine {f : State → Host.Outcome State Fault Refusal} (k : TrapRoutine)
    (hf : ∀ s, f s = .next (runRoutine k s.trapEnter)) {s : State} (hs : s.waiting = none) : LeavesNoTrace f s :=
  leavesNoTrace_of_eq s.trapEnter_run (hf s) (fun bs => by rw [hf, trapEnter_supply])
    (runRoutine_leavesNoTrace k (s.trapEnter_waiting.trans hs))

/-- An instruction that waits does so in one of the tails. -/
theorem exec_leavesNoTrace {i : Instr} (hwf : i.wf = true) {s : State} (hs : s.waiting = none) :
    LeavesNoTrace (exec i) s := by
  cases i with
  | trap v => exact absurd hwf (by simp [Instr.wf, Instr.illFormed])
  | ld dr off => exact leavesNoTrace_of_eq rfl rfl (fun _ => rfl) (load_leavesNoTrace dr (s.pcRel9 off) hs)
  | ldr dr baseR off =>
    exact leavesNoTrace_of_eq rfl rfl (fun _ => rfl) (load_leavesNoTrace dr (s.baseRel baseR off) hs)
  | ldi dr off => exact leavesNoTrace_of_eq rfl rfl (fun _ => rfl) (loadPointer_leavesNoTrace dr (s.pcRel9 off) hs)
  | sti sr off => exact leavesNoTrace_of_eq rfl rfl (fun _ => rfl) (storePointer_leavesNoTrace sr (s.pcRel9 off) hs)
  | trapGetc => exact leavesNoTrace_of_routine .getc (fun _ => rfl) hs
  | trapOut => exact leavesNoTrace_of_routine .out (fun _ => rfl) hs
  | trapPuts => exact leavesNoTrace_of_routine .puts (fun _ => rfl) hs
  | trapIn => exact leavesNoTrace_of_routine .inChar (fun _ => rfl) hs
  | trapPutsp => exact leavesNoTrace_of_routine .putsp (fun _ => rfl) hs
  | trapHalt => exact leavesNoTrace_of_routine .halt (fun _ => rfl) hs
  | trapOther v => exact leavesNoTrace_of_done rfl (s.trapEnter_waiting.trans hs)
  | br nzp off =>
    refine leavesNoTrace_of_done rfl ?_
    split <;> exact hs
  | _ => exact leavesNoTrace_of_done rfl hs

theorem fetch_leavesNoTrace {s : State} (hs : s.waiting = none) : LeavesNoTrace (resume .fetch) s := by
  rcases h : s.memRead s.pc with _ | ⟨I, s1⟩
  · exact leavesNoTrace_of_block hs (cycle_of_block h)
  · have hs1 := memRead_waiting h hs
    have hrun1 := memRead_run h
    exact leavesNoTrace_of_eq (s1 := s1.writePc (s1.pc + 1#16)) hrun1 (cycle_of_read h)
      (fun bs => cycle_of_read (memRead_supply bs h)) (exec_leavesNoTrace (decode_wf I) hs1)

theorem resume_leavesNoTrace (w : Wait) {s : State} (hs : s.waiting = none) : LeavesNoTrace (resume w) s := by
  cases w with
  | fetch => exact fetch_leavesNoTrace hs
  | load dr ea => exact load_leavesNoTrace dr ea hs
  | loadPointer dr ea => exact loadPointer_leavesNoTrace dr ea hs
  | storePointer sr ea => exact storePointer_leavesNoTrace sr ea hs
  | character => exact character_leavesNoTrace hs
  | puts a => exact puts_leavesNoTrace a hs
  | putsp a => exact putsp_leavesNoTrace a hs

/-- A step of a RUNNING core resumes the cycle that waits, or begins one with its fetch. -/
theorem step_eq_resume {s : State} (hrun : s.run = .running) : step s = resume (s.waiting.getD .fetch) s.unblock := by
  rw [step_of_running hrun]
  cases hw : s.waiting with
  | none => rw [stepRunning_of_none hw, State.unblock_of_none s hw, Option.getD_none, resume_fetch]
  | some w => rw [stepRunning_of_waiting hw, Option.getD_some]

/-- Settles O42: the step that waits and the step after it are one operation that leaves no trace of its wait. -/
theorem aWaitLeavesNoTrace : Obligations.AWaitLeavesNoTrace := by
  intro s t bs ht hwait
  obtain ⟨hrun, -⟩ := step_next_running ht
  rw [step_eq_resume hrun] at ht
  obtain ⟨u, w, rfl, hu, hurun, hresume⟩ := resume_leavesNoTrace _ s.unblock_waiting t ht hwait
  have hunblock : ((u.block w).supply bs).unblock = u.supply bs := congrArg (·.supply bs) (block_unblock_of_none hu)
  calc step ((u.block w).supply bs)
      = resume w ((u.block w).supply bs).unblock := step_eq_resume (hurun.trans hrun)
    _ = resume (s.waiting.getD .fetch) (s.unblock.supply bs) := by rw [hunblock, hresume]
    _ = step (s.supply bs) := (step_eq_resume (s := s.supply bs) hrun).symm

end Sys2Proof.Machine

namespace Sys2Proof.Machine

/-! What an instruction leaves alone: COND, the registers and memory (10_state.md R21, R26; 20_memory.md R58). -/

/-- The routine that a TRAP row runs, if it names one (R170). -/
def routineOf : Instr → Option TrapRoutine
  | .trap v => TrapRoutine.ofVector v
  | .trapGetc => some .getc
  | .trapOut => some .out
  | .trapPuts => some .puts
  | .trapIn => some .inChar
  | .trapPutsp => some .putsp
  | .trapHalt => some .halt
  | _ => none

/-- A TRAP row runs its routine after TRAP's first line, or stops there (R170, R177). -/
theorem exec_of_isTrap {i : Instr} (h : isTrap i = true) {s t : State} (ht : exec i s = .next t) :
    (∃ r, routineOf i = some r ∧ t = runRoutine r s.trapEnter) ∨
    t = s.trapEnter.raiseFatal .unknownTrapVector := by
  cases i with
  | trap v =>
    simp only [exec, execTrap] at ht
    split at ht
    · cases ht
      exact .inl ⟨_, by assumption, rfl⟩
    · cases ht
      exact .inr rfl
  | trapOther v => cases ht; exact .inr rfl
  | trapGetc | trapOut | trapPuts | trapIn | trapPutsp | trapHalt => cases ht; exact .inl ⟨_, rfl, rfl⟩
  | _ => cases h

theorem memRead_cond {s s1 : State} {a v : Word} (h : s.memRead a = some (v, s1)) : s1.cond = s.cond :=
  (memRead_sameButMemoryAndInput h).cond

theorem memRead_reg {s s1 : State} {a v : Word} (h : s.memRead a = some (v, s1)) (r : Reg) : s1.reg r = s.reg r :=
  (memRead_sameButMemoryAndInput h).regs r

/-- R178: a routine writes no flag. -/
theorem runRoutine_cond (r : TrapRoutine) (s : State) : (runRoutine r s).cond = s.cond :=
  runRoutine_keeps (P := fun t => t.cond = s.cond) (fun _ _ h => h) (fun _ _ _ _ h e => (memRead_cond e).trans h)
    (fun _ _ h => h) (fun _ _ h => h) r (fun _ _ h => h) (fun _ _ _ h => h) s rfl

theorem storeIndirectFrom_cond (sr : Reg) (ea : Word) (s : State) : (storeIndirectFrom sr ea s).cond = s.cond := by
  cases h : s.memRead ea with
  | none => rw [storeIndirectFrom_of_block h, State.block_cond]
  | some p => rw [storeIndirectFrom_of_read h, State.memWrite_cond, memRead_cond h]

/-- R178: a TRAP writes no flag. -/
theorem exec_cond_of_isTrap {i : Instr} (h : isTrap i = true) {s t : State} (ht : exec i s = .next t) :
    t.cond = s.cond := by
  obtain ⟨r, -, rfl⟩ | rfl := exec_of_isTrap h ht
  · rw [runRoutine_cond, State.trapEnter_cond]
  · rw [State.raiseFatal_cond, State.trapEnter_cond]

/-- Settles O46: of the instructions that set no flag, STI and the TRAP rows alone are more than one write. -/
theorem onlyFlagSettingInstructionsWriteCond : Obligations.OnlyFlagSettingInstructionsWriteCond := by
  intro i s t ht hflag
  cases i with
  | addReg | addImm | andReg | andImm | not | ld | ldi | ldr | lea => cases hflag
  | sti sr off => cases ht; exact storeIndirectFrom_cond sr _ s
  | br nzp off => cases ht; split <;> rfl
  | st | str | jmp | jsr | jsrr | rti | res => cases ht; rfl
  | _ => exact exec_cond_of_isTrap rfl ht

theorem loadFrom_reg_of_ne {dr r : Reg} (hr : r ≠ dr) (ea : Word) (s : State) :
    (loadFrom dr ea s).reg r = s.reg r := by
  cases h : s.memRead ea with
  | none => rw [loadFrom_of_block h, State.block_reg]
  | some p => rw [loadFrom_of_read h, State.writeResult_reg_of_ne _ _ _ hr, memRead_reg h]

theorem loadIndirectFrom_reg_of_ne {dr r : Reg} (hr : r ≠ dr) (ea : Word) (s : State) :
    (loadIndirectFrom dr ea s).reg r = s.reg r := by
  cases h : s.memRead ea with
  | none => rw [loadIndirectFrom_of_block h, State.block_reg]
  | some p => rw [loadIndirectFrom_of_read h, loadFrom_reg_of_ne hr, memRead_reg h]

theorem storeIndirectFrom_reg (sr : Reg) (ea : Word) (s : State) (r : Reg) :
    (storeIndirectFrom sr ea s).reg r = s.reg r := by
  cases h : s.memRead ea with
  | none => rw [storeIndirectFrom_of_block h, State.block_reg]
  | some p => rw [storeIndirectFrom_of_read h, State.memWrite_reg, memRead_reg h]

/-- GETC and IN have the destination R0. -/
theorem destination_of_routine {i : Instr} {k : TrapRoutine} (h : routineOf i = some k)
    (hk : k = .getc ∨ k = .inChar) : destination i = some .r0 := by
  have hvector : ∀ v, TrapRoutine.ofVector v = some .getc ∨ TrapRoutine.ofVector v = some .inChar →
      v = 0x20#8 ∨ v = 0x23#8 := by decide
  cases i with
  | trap v =>
    refine if_pos (hvector v ?_)
    obtain rfl | rfl := hk
    · exact .inl h
    · exact .inr h
  | trapGetc | trapIn => rfl
  | trapOut | trapPuts | trapPutsp | trapHalt => cases h; simp at hk
  | _ => cases h

/-- R178: a routine writes no register but GETC's and IN's R0. -/
theorem runRoutine_reg {k : TrapRoutine} {r : Reg} (hr : k = .getc ∨ k = .inChar → r ≠ .r0) (s : State) :
    (runRoutine k s).reg r = s.reg r :=
  runRoutine_keeps (P := fun t => t.reg r = s.reg r) (fun _ _ h => h) (fun _ _ _ _ h e => (memRead_reg e r).trans h)
    (fun _ _ h => h) (fun _ _ h => h) k (fun _ _ h => h)
    (fun hk _ _ h => (State.writeReg_reg_of_ne _ _ _ (hr hk)).trans h) s rfl

/-- R170, R178: a TRAP writes no register but its destination, after its first line. -/
theorem exec_reg_of_isTrap {i : Instr} (h : isTrap i = true) {s t : State} (ht : exec i s = .next t) {r : Reg}
    (hr : destination i ≠ some r) : t.reg r = s.trapEnter.reg r := by
  obtain ⟨k, hk, rfl⟩ | rfl := exec_of_isTrap h ht
  · refine runRoutine_reg (fun hread h0 => ?_) _
    exact hr (h0 ▸ destination_of_routine hk hread)
  · exact State.raiseFatal_reg _ _ r

/-- Settles O47: an instruction that is no TRAP writes its destination at most, and TRAP's first line R7. -/
theorem onlyTheDestinationRegisterIsWritten : Obligations.OnlyTheDestinationRegisterIsWritten := by
  intro i s t r ht hdest hr7
  have hne {d : Reg} (hd : destination i = some d) : r ≠ d := fun e => hdest (e ▸ hd)
  have htrap (hi : isTrap i = true) : t.reg r = s.reg r := by
    rw [exec_reg_of_isTrap hi ht hdest, State.trapEnter_reg, if_neg]
    rintro ⟨hon, hr⟩
    exact absurd hon (by simp [hr7 hi hr])
  cases i with
  | addReg | addImm | andReg | andImm | not | lea => cases ht; exact State.writeResult_reg_of_ne _ _ _ (hne rfl)
  | ld | ldr => cases ht; exact loadFrom_reg_of_ne (hne rfl) _ s
  | ldi => cases ht; exact loadIndirectFrom_reg_of_ne (hne rfl) _ s
  | sti => cases ht; exact storeIndirectFrom_reg _ _ s r
  | br nzp off => cases ht; split <;> rfl
  | jsr | jsrr => cases ht; exact State.link_reg_of_ne s (hne rfl)
  | st | str | jmp | rti | res => cases ht; rfl
  | _ => exact htrap rfl

/-- `t` is `s` after reads at most: no word but the two of the keyboard has changed, and none at all unless a byte has
been consumed. -/
structure ReadsOnly (s t : State) : Prop where
  cfg : t.cfg = s.cfg
  words : ∀ a, a ≠ s.cfg.kbsrAddr → a ≠ s.cfg.kbdrAddr → t.mem.read a = s.mem.read a
  consumed : s.consumed ≤ t.consumed
  sameMemory : t.consumed = s.consumed → SameMemory s t

theorem ReadsOnly.of_mem {s t : State} (hcfg : t.cfg = s.cfg) (hmem : t.mem = s.mem)
    (hconsumed : s.consumed ≤ t.consumed) : ReadsOnly s t :=
  ⟨hcfg, fun _ _ _ => by rw [hmem], hconsumed, fun _ _ => by rw [hmem]⟩

theorem ReadsOnly.trans {s t u : State} (h : ReadsOnly s t) (k : ReadsOnly t u) : ReadsOnly s u := by
  have hconsumed := h.consumed
  have kconsumed := k.consumed
  refine ⟨k.cfg.trans h.cfg, fun a h1 h2 => ?_, by omega, fun heq a => ?_⟩
  · rw [k.words a (by rwa [h.cfg]) (by rwa [h.cfg]), h.words a h1 h2]
  · rw [k.sameMemory (by omega) a, h.sameMemory (by omega) a]

theorem memRead_readsOnly {s s1 : State} {a v : Word} (h : s.memRead a = some (v, s1)) : ReadsOnly s s1 := by
  obtain ⟨hcfg, -, -, -, -, -, -, hwords⟩ := memRead_frame h
  refine ⟨hcfg, hwords, memRead_consumed_le h, fun heq => ?_⟩
  obtain ⟨-, -, rfl⟩ | ⟨-, b, rest, -, rfl, -⟩ := memRead_some h
  · exact fun _ => rfl
  · simp at heq

theorem loadFrom_readsOnly (dr : Reg) (ea : Word) (s : State) : ReadsOnly s (loadFrom dr ea s) := by
  cases h : s.memRead ea with
  | none =>
    rw [loadFrom_of_block h]
    exact .of_mem rfl rfl le_rfl
  | some p =>
    rw [loadFrom_of_read h]
    exact (memRead_readsOnly h).trans (.of_mem rfl rfl le_rfl)

theorem loadIndirectFrom_readsOnly (dr : Reg) (ea : Word) (s : State) : ReadsOnly s (loadIndirectFrom dr ea s) := by
  cases h : s.memRead ea with
  | none =>
    rw [loadIndirectFrom_of_block h]
    exact .of_mem rfl rfl le_rfl
  | some p =>
    rw [loadIndirectFrom_of_read h]
    exact (memRead_readsOnly h).trans (loadFrom_readsOnly dr p.1 p.2)

theorem runRoutine_readsOnly (r : TrapRoutine) (s : State) : ReadsOnly s (runRoutine r s) :=
  runRoutine_keeps (P := ReadsOnly s) (fun _ _ h => h.trans (.of_mem rfl rfl le_rfl))
    (fun _ _ _ _ h e => h.trans (memRead_readsOnly e)) (fun _ _ h => h.trans (.of_mem rfl rfl le_rfl))
    (fun _ _ h => h.trans (.of_mem rfl rfl (Nat.le_succ _))) r (fun _ _ h => h.trans (.of_mem rfl rfl le_rfl))
    (fun _ _ _ h => h.trans (.of_mem rfl rfl le_rfl)) s (.of_mem rfl rfl le_rfl)

theorem trapEnter_readsOnly (s : State) : ReadsOnly s s.trapEnter :=
  .of_mem s.trapEnter_cfg s.trapEnter_mem s.trapEnter_consumed.ge

/-- R58: a TRAP reads at most. -/
theorem exec_readsOnly_of_isTrap {i : Instr} (h : isTrap i = true) {s t : State} (ht : exec i s = .next t) :
    ReadsOnly s t := by
  obtain ⟨r, -, rfl⟩ | rfl := exec_of_isTrap h ht
  · exact (trapEnter_readsOnly s).trans (runRoutine_readsOnly r _)
  · exact (trapEnter_readsOnly s).trans (.of_mem rfl rfl le_rfl)

/-- R58: the instructions that read. -/
theorem exec_readsOnly {i : Instr} {s t : State} (ht : exec i s = .next t) (h : accessOf i = .reads) :
    ReadsOnly s t := by
  cases i with
  | ld | ldr => cases ht; exact loadFrom_readsOnly _ _ s
  | ldi => cases ht; exact loadIndirectFrom_readsOnly _ _ s
  | trap | trapPuts | trapPutsp => exact exec_readsOnly_of_isTrap rfl ht
  | _ => cases h

theorem readCharacter_mem (s : State) : (readCharacter s).mem = s.mem := by
  cases hi : s.input with
  | nil => rw [readCharacter_of_nil hi, State.block_mem]
  | cons b rest => rw [readCharacter_of_cons hi, State.writeReg_mem, State.advanceInput_mem]

/-- R58: the instructions that access no memory after their fetch. -/
theorem exec_mem {i : Instr} {s t : State} (ht : exec i s = .next t) (h : accessOf i = .nothing) : t.mem = s.mem := by
  cases i with
  | addReg | addImm | andReg | andImm | not | lea | jmp | jsr | jsrr | rti | res => cases ht; rfl
  | br nzp off => cases ht; split <;> rfl
  | trapGetc | trapIn => cases ht; exact (readCharacter_mem _).trans s.trapEnter_mem
  | trapOut | trapHalt | trapOther => cases ht; exact s.trapEnter_mem
  | _ => cases h

/-- Settles O48: the instructions that access no memory keep all of it, and those that read write it by the refresh
alone. -/
theorem onlyStoresAndTheRefreshChangeMemory : Obligations.OnlyStoresAndTheRefreshChangeMemory := by
  intro i s t ht
  refine ⟨fun h a => by rw [exec_mem ht h], fun h => ?_⟩
  have hreads := exec_readsOnly ht h
  exact ⟨hreads.words, hreads.sameMemory⟩

end Sys2Proof.Machine
